-- ==== Sys2Proof/Word.lean ====
section
/-! DEFINITION. The value types of the core, as integer subranges (`10_state.md` R20, `00_scope.md` R6):
trybble, tryte and word. The machine has no bits; every value is an integer that knows its range.
Splitting, joining and wrapping stand in `Sys2Proof/Decode.lean`. -/

namespace Sys2Proof

/-- A trybble: three trits, an integer from -13 to 13 (R6, R20). -/
@[ext] structure Trybble where
  val : Int
  inRange : -13 ≤ val ∧ val ≤ 13
deriving DecidableEq, Repr

/-- A tryte: six trits, an integer from -364 to 364 (R6, R20). The addressable unit of the store and the element of the
evaluation stack. -/
@[ext] structure Tryte where
  val : Int
  inRange : -364 ≤ val ∧ val ≤ 364
deriving DecidableEq, Repr

/-- A word: twelve trits, an integer from -265720 to 265720 (R6, R20). Used for addresses and two-tryte immediates. -/
@[ext] structure Word where
  val : Int
  inRange : -265720 ≤ val ∧ val ≤ 265720
deriving DecidableEq, Repr

/-- The trybble of a written-out value. -/
def tb (v : Int) (h : -13 ≤ v ∧ v ≤ 13 := by decide) : Trybble := ⟨v, h⟩

/-- The tryte of a written-out value. -/
def ty (v : Int) (h : -364 ≤ v ∧ v ≤ 364 := by decide) : Tryte := ⟨v, h⟩

/-- The word of a written-out value. -/
def wd (v : Int) (h : -265720 ≤ v ∧ v ≤ 265720 := by decide) : Word := ⟨v, h⟩

end Sys2Proof
end

