-- ==== Sys2Proof/Config.lean ====
section
/-! DEFINITION. The OPEN parameters of the machine (`00_scope.md` R5) that a step depends on, as plain data, their
constraints, and the default instantiation of R5. The state carries one `Params` and no step changes it (log 1), so a
claim over every state is a claim over every admissible choice of the parameters, as R86 asks.
`RESET_PC` and `MEM_INIT` matter only at construction: they are arguments of `Machine.State.construct`.
`TRYTE_ADD` is decided (R162): it is `Machine.tryteAdd`. -/

namespace Sys2Proof

/-- The six reserved operations (`30_encoding.md` R83, R92). -/
inductive ReservedOp where
  | inc | max | shl | shr | signed | unsigned
deriving DecidableEq, Repr

/-- A run of consecutive addresses, both ends included. -/
structure AddrRange where
  lo : Int
  hi : Int
deriving DecidableEq, Repr

/-- The OPEN parameters a step reads (R5, R39). -/
structure Params where
  /-- `ADDR_VALID` (`20_memory.md` R53): the union of these ranges is the set of addresses the store accepts (log 16). -/
  addrValid : List AddrRange
  /-- `LIT_HI` (`30_encoding.md` R86): the high-trybble value that selects the inline literal. -/
  litHi : Trybble
  /-- `RESERVED_HI` (R92): the partial map from a high-trybble value to a reserved operation. -/
  reservedHi : List (Trybble × ReservedOp)
  /-- `RESERVED_LO` (R92): the partial map from a low-trybble value to a reserved operation. -/
  reservedLo : List (Trybble × ReservedOp)
deriving DecidableEq, Repr

/-- Whether the store accepts an address: membership in `ADDR_VALID` (R53). -/
def Params.accepts (P : Params) (a : Int) : Bool :=
  P.addrValid.any fun r => decide (r.lo ≤ a ∧ a ≤ r.hi)

/-- The nine assigned values of the simple table (R84). -/
def simpleCodes : List Int := [-10, -8, -1, 0, 1, 2, 3, 4, 6]

/-- The set `U` of R92: the nine values that neither table assigns. -/
def unassignedCodes : List Int := [-9, -7, -6, -5, -4, -3, -2, 5, 7]

/-- The constraints on `ADDR_VALID` (R53): at most 59049 members, all between -29524 and 59048. The ranges are listed in
rising order without overlap, so that the sum of their sizes is the number of members. -/
abbrev Params.addrSetOk (P : Params) : Prop :=
  (∀ r ∈ P.addrValid, -29524 ≤ r.lo ∧ r.lo ≤ r.hi ∧ r.hi ≤ 59048) ∧
  P.addrValid.Pairwise (fun r q => r.hi < q.lo) ∧
  (P.addrValid.map fun r => r.hi - r.lo + 1).sum ≤ 59049

/-- The constraint on `LIT_HI` (R86): none of the nine assigned simple values, and not in the domain of `RESERVED_HI`. -/
abbrev Params.litHiOk (P : Params) : Prop :=
  P.litHi.val ∉ simpleCodes ∧ ∀ e ∈ P.reservedHi, e.1 ≠ P.litHi

/-- The constraints on the two reserved maps (R92): where they are defined, and that each is an injective map (so it has at
most six entries). -/
abbrev Params.reservedOk (P : Params) : Prop :=
  (∀ e ∈ P.reservedHi, e.1.val ∉ simpleCodes) ∧
  (∀ e ∈ P.reservedLo, e.1.val ∈ unassignedCodes) ∧
  (P.reservedHi.map Prod.fst).Nodup ∧ (P.reservedHi.map Prod.snd).Nodup ∧
  (P.reservedLo.map Prod.fst).Nodup ∧ (P.reservedLo.map Prod.snd).Nodup

/-- Parameters that meet every constraint the spec puts on them (R53, R86, R92). -/
abbrev Params.Admissible (P : Params) : Prop :=
  P.addrSetOk ∧ P.litHiOk ∧ P.reservedOk

/-- The default instantiation of R5 (log 2): `ADDR_VALID` is -29524 to 29524, `LIT_HI` is -12, both reserved maps are
empty. -/
def Params.std : Params where
  addrValid := [⟨-29524, 29524⟩]
  litHi := tb (-12)
  reservedHi := []
  reservedLo := []

end Sys2Proof
end

