-- ==== Sys2Proof/Syntax.lean ====
section
/-! DEFINITION. The operations of the triton ISA (`30_encoding.md` R83): one constructor for each mnemonic of
`opcode_table.json`; the closed set of 24 variants these decode to is `Operation` (`Sys2Proof/Decode.lean`). The table's HI row and LO row of a simple operation are that one operation in its two slots
(R104), and R127 gives each operation variant exactly one arm; the slot belongs to the encoding (`Sys2Proof.Pair`,
`Sys2Proof/WellFormed.lean`; log 17). -/

namespace Sys2Proof

/-- An operation (the source's "Instruction") under its mnemonic: what one slot of an instruction tryte decodes to. LIT and LITX
are two mnemonics of one variant (R83; `Instr.operation`). -/
inductive Instr where
  /-- LIT, the inline literal (`41_literals.md` R140); the payload is the low trybble. -/
  | lit (imm3 : Trybble)
  /-- STORE (`44_memory_access.md` R171). -/
  | store
  /-- LOAD (`44_memory_access.md` R170). -/
  | load
  /-- NEGATE (`43_arithmetic.md` R165). -/
  | negate
  /-- NOP (`42_stack.md` R150); also the placeholder second operation of an inline literal (`30_encoding.md` R89). -/
  | nop
  /-- ADD (`43_arithmetic.md` R164). -/
  | add
  /-- ROTATE (`42_stack.md` R154). -/
  | rotate
  /-- SWAP (`42_stack.md` R153). -/
  | swap
  /-- DUP (`42_stack.md` R152). -/
  | dup
  /-- DROP (`42_stack.md` R151). -/
  | drop
  /-- HALT (`46_halt_and_reserved.md` R200). -/
  | halt
  /-- LITX, the extended literal (`41_literals.md` R141); the payload is the operand tryte. -/
  | litx (imm6 : Tryte)
  /-- WORD, the word literal (`41_literals.md` R142); the payload is the word of the two operand trytes. -/
  | word (imm12 : Word)
  /-- RETURN (`45_control_transfer.md` R180). -/
  | ret
  /-- JUMP (`45_control_transfer.md` R181). -/
  | jump
  /-- CALL (`45_control_transfer.md` R182). -/
  | call
  /-- BRN, branch if negative (`45_control_transfer.md` R184, R189). -/
  | brn
  /-- BRZ, branch if zero (`45_control_transfer.md` R185, R189). -/
  | brz
  /-- BRP, branch if positive (`45_control_transfer.md` R186, R189). -/
  | brp
  /-- INC, reserved (`46_halt_and_reserved.md` R203). -/
  | inc
  /-- MAX, reserved (R203). -/
  | max
  /-- SHL, reserved (R203). -/
  | shl
  /-- SHR, reserved (R203). -/
  | shr
  /-- SIGNED, reserved (R203). -/
  | signed
  /-- UNSIGNED, reserved (R203). -/
  | unsigned
deriving DecidableEq, Repr

end Sys2Proof
end

