-- ==== Sys2Proof/WellFormed.lean ====
section
/-! DEFINITION. Which operations an instruction can hold, and where (`30_encoding.md` R81, R84, R85, R89, R91, R92).
An instruction always holds two operations, the first from the high slot and the second from the low slot (R80). -/

namespace Sys2Proof

/-- The two operations of one instruction, high slot first (R80, R87). -/
structure Pair where
  first : Instr
  second : Instr
deriving DecidableEq, Repr

/-- The operation a reserved entry stands for (R92). -/
def ReservedOp.toInstr : ReservedOp → Instr
  | .inc => .inc
  | .max => .max
  | .shl => .shl
  | .shr => .shr
  | .signed => .signed
  | .unsigned => .unsigned

/-- Whether a reserved map gives some trybble value to a reserved operation (R92). -/
def hasCode (m : List (Trybble × ReservedOp)) (r : ReservedOp) : Bool :=
  m.any fun e => decide (e.2 = r)

/-- Whether an operation has an encoding in the high slot of a format P, X1 or X2 instruction: the simple operations and
those reserved operations that `RESERVED_HI` places (R84, R91, R92). -/
def Instr.fitsHigh (P : Params) : Instr → Bool
  | .store => true
  | .load => true
  | .negate => true
  | .nop => true
  | .add => true
  | .rotate => true
  | .swap => true
  | .dup => true
  | .drop => true
  | .inc => hasCode P.reservedHi .inc
  | .max => hasCode P.reservedHi .max
  | .shl => hasCode P.reservedHi .shl
  | .shr => hasCode P.reservedHi .shr
  | .signed => hasCode P.reservedHi .signed
  | .unsigned => hasCode P.reservedHi .unsigned
  | .lit _ => false
  | .litx _ => false
  | .word _ => false
  | .halt => false
  | .ret => false
  | .jump => false
  | .call => false
  | .brn => false
  | .brz => false
  | .brp => false

/-- Whether an operation has an encoding in the low slot (R84, R85, R92): every operation but the inline literal, a reserved
one only where `RESERVED_LO` places it. -/
def Instr.fitsLow (P : Params) : Instr → Bool
  | .store => true
  | .load => true
  | .negate => true
  | .nop => true
  | .add => true
  | .rotate => true
  | .swap => true
  | .dup => true
  | .drop => true
  | .halt => true
  | .litx _ => true
  | .word _ => true
  | .ret => true
  | .jump => true
  | .call => true
  | .brn => true
  | .brz => true
  | .brp => true
  | .inc => hasCode P.reservedLo .inc
  | .max => hasCode P.reservedLo .max
  | .shl => hasCode P.reservedLo .shl
  | .shr => hasCode P.reservedLo .shr
  | .signed => hasCode P.reservedLo .signed
  | .unsigned => hasCode P.reservedLo .unsigned
  | .lit _ => false

/-- Whether an operation is the inline literal, which takes the whole instruction tryte (R89). -/
def Instr.isInline : Instr → Bool
  | .lit _ => true
  | .store => false
  | .load => false
  | .negate => false
  | .nop => false
  | .add => false
  | .rotate => false
  | .swap => false
  | .dup => false
  | .drop => false
  | .halt => false
  | .litx _ => false
  | .word _ => false
  | .ret => false
  | .jump => false
  | .call => false
  | .brn => false
  | .brz => false
  | .brp => false
  | .inc => false
  | .max => false
  | .shl => false
  | .shr => false
  | .signed => false
  | .unsigned => false

/-- Format I: an inline literal with the placeholder NOP (R89). -/
def Pair.isFormatI (p : Pair) : Bool :=
  p.first.isInline && decide (p.second = .nop)

/-- An instruction the machine has: format I, or a high-slot operation with a low-slot operation (R81). -/
def Pair.wellFormed (P : Params) (p : Pair) : Bool :=
  p.isFormatI || (p.first.fitsHigh P && p.second.fitsLow P)

end Sys2Proof
end

