-- ==== Sys2Proof/Decode.lean ====
section
/-! DEFINITION. Splitting and joining (`00_scope.md` R7), the operation variants (`30_encoding.md` R83), the decode tables
(R84, R85, R92), the decoder (R87), and after it the encoder, written from the same tables. -/

namespace Sys2Proof

/-! ## Splitting, joining, wrapping (R7) -/

/-- `lo3(t)`: the low trybble of a tryte (R7). -/
def lo3 (t : Tryte) : Trybble :=
  ⟨(t.val + 13) % 27 - 13, by omega⟩

/-- `hi3(t)`: the high trybble of a tryte (R7). -/
def hi3 (t : Tryte) : Trybble :=
  ⟨(t.val - ((t.val + 13) % 27 - 13)) / 27, by have h := t.inRange; omega⟩

/-- `tryte(h, l) = 27*h + l` (R7). -/
def joinTryte (h l : Trybble) : Tryte :=
  ⟨27 * h.val + l.val, by have h1 := h.inRange; have h2 := l.inRange; omega⟩

/-- `wlo(w)`: the low tryte of a word (R7). -/
def wlo (w : Word) : Tryte :=
  ⟨(w.val + 364) % 729 - 364, by omega⟩

/-- `whi(w)`: the high tryte of a word (R7). -/
def whi (w : Word) : Tryte :=
  ⟨(w.val - ((w.val + 364) % 729 - 364)) / 729, by have h := w.inRange; omega⟩

/-- `word(H, L) = 729*H + L` (R7). -/
def joinWord (H L : Tryte) : Word :=
  ⟨729 * H.val + L.val, by have h1 := H.inRange; have h2 := L.inRange; omega⟩

/-- `wrap6(x)`: an integer reduced modulo 729 into the range of a tryte (R7). -/
def wrap6 (x : Int) : Tryte :=
  ⟨(x + 364) % 729 - 364, by omega⟩

/-- A trybble taken as a tryte keeps its integer value (R96). -/
def widen (v : Trybble) : Tryte :=
  ⟨v.val, by have h := v.inRange; omega⟩

/-! ## The operation set (R83) -/

/-- An operation variant (R83): the closed set of 24. The inline literal and the extended literal are two encodings of the one
variant `LIT(v)`, with `v` any tryte; the operations named in faults are these (`60_exceptions.md` R220). -/
inductive Operation where
  /-- `LIT(v)`, from the inline or from the extended encoding. -/
  | lit (v : Tryte)
  /-- `WORD(w)`. -/
  | word (w : Word)
  | nop
  | drop
  | dup
  | swap
  | rotate
  | add
  | negate
  | load
  | store
  | ret
  | jump
  | call
  | brn
  | brz
  | brp
  | halt
  | inc
  | max
  | shl
  | shr
  | signed
  | unsigned
deriving DecidableEq, Repr

/-- The operation variant an instruction of the table decodes to (R83): LIT and LITX are one variant, and the inline immediate is
widened to a tryte of the same value (R96); every other mnemonic is a variant of its own. -/
def Instr.operation : Instr → Operation
  | .lit v => .lit (widen v)
  | .store => .store
  | .load => .load
  | .negate => .negate
  | .nop => .nop
  | .add => .add
  | .rotate => .rotate
  | .swap => .swap
  | .dup => .dup
  | .drop => .drop
  | .halt => .halt
  | .litx v => .lit v
  | .word w => .word w
  | .ret => .ret
  | .jump => .jump
  | .call => .call
  | .brn => .brn
  | .brz => .brz
  | .brp => .brp
  | .inc => .inc
  | .max => .max
  | .shl => .shl
  | .shr => .shr
  | .signed => .signed
  | .unsigned => .unsigned

/-! ## The decode tables -/

/-- `SIMPLE` (R84), shared by both slots. -/
def simpleTable : List (Trybble × Instr) :=
  [(tb (-10), .store),
   (tb (-8), .load),
   (tb (-1), .negate),
   (tb 0, .nop),
   (tb 1, .add),
   (tb 2, .rotate),
   (tb 3, .swap),
   (tb 4, .dup),
   (tb 6, .drop)]

/-- `EXT0`: the extended table (R85) without its two rows that take operand trytes (R87). Low slot only. -/
def ext0Table : List (Trybble × Instr) :=
  [(tb (-13), .halt),
   (tb 8, .ret),
   (tb 9, .jump),
   (tb 10, .call),
   (tb 11, .brn),
   (tb 12, .brz),
   (tb 13, .brp)]

/-- The low-slot value of LITX (R85, R94). -/
def litxCode : Trybble := tb (-12)

/-- The low-slot value of WORD (R85, R95). -/
def wordCode : Trybble := tb (-11)

/-- A reserved map as rows of a decode table (R92). -/
def reservedRows (m : List (Trybble × ReservedOp)) : List (Trybble × Instr) :=
  m.map fun e => (e.1, e.2.toInstr)

/-- Everything the high slot can hold but the inline literal, in the order it is tried (R90). -/
def highTable (P : Params) : List (Trybble × Instr) :=
  simpleTable ++ reservedRows P.reservedHi

/-- Everything the low slot can hold that takes no operand tryte, in the order it is tried (R93). -/
def lowTable (P : Params) : List (Trybble × Instr) :=
  ext0Table ++ simpleTable ++ reservedRows P.reservedLo

/-- The operation a table gives to a trybble value: the first row with that value. -/
def opOf : List (Trybble × Instr) → Trybble → Option Instr
  | [], _ => none
  | row :: rows, v => if row.1 = v then some row.2 else opOf rows v

/-! ## The decoder -/

/-- The two ways a decode can fail (R99), with their payloads. -/
inductive DecodeError where
  /-- `AddressError(a)`: the store rejected the read at `a`. -/
  | address (a : Int)
  /-- `IllegalInstruction(p, value)`: the address of the instruction tryte and the unrecognized trybble. -/
  | illegal (position : Int) (value : Trybble)
deriving DecidableEq, Repr

/-- What a decode yields (R82): the two operations and the post-decode pc. -/
structure Decoded where
  ops : Pair
  next : Int
deriving DecidableEq, Repr

/-- One read of the decoder: the tryte the store gives, or `AddressError` (R88, R94, R95). -/
def readOr (read : Int → Option Tryte) (a : Int) : Except DecodeError Tryte :=
  match read a with
  | some t => .ok t
  | none => .error (.address a)

/-- The low slot (R93 to R95): the operation of low trybble `l` of the instruction tryte at `p`, and the address after the
last tryte consumed. -/
def decodeLow (P : Params) (read : Int → Option Tryte) (p : Int) (l : Trybble) :
    Except DecodeError (Instr × Int) :=
  if l = litxCode then
    match readOr read (p + 1) with
    | .error e => .error e
    | .ok v => .ok (.litx v, p + 2)
  else if l = wordCode then
    match readOr read (p + 1) with
    | .error e => .error e
    | .ok H =>
      match readOr read (p + 2) with
      | .error e => .error e
      | .ok L => .ok (.word (joinWord H L), p + 3)
  else
    match opOf (lowTable P) l with
    | some i => .ok (i, p + 1)
    | none => .error (.illegal p l)

/-- The decoder (R87): `read` is the store, read-only, and `p` the start address. The high slot is judged before the low
slot is looked at (R90); an inline literal ends the decode at once (R89). -/
def decodeAt (P : Params) (read : Int → Option Tryte) (p : Int) : Except DecodeError Decoded :=
  match readOr read p with
  | .error e => .error e
  | .ok t =>
    if hi3 t = P.litHi then .ok ⟨⟨.lit (lo3 t), .nop⟩, p + 1⟩
    else
      match opOf (highTable P) (hi3 t) with
      | none => .error (.illegal p (hi3 t))
      | some op1 =>
        match decodeLow P read p (lo3 t) with
        | .error e => .error e
        | .ok (op2, c) => .ok ⟨⟨op1, op2⟩, c⟩

/-! ## The encoder -/

/-- The trybble value a table gives an operation: the first row with that operation. -/
def codeOf : List (Trybble × Instr) → Instr → Option Trybble
  | [], _ => none
  | row :: rows, i => if row.2 = i then some row.1 else codeOf rows i

/-- The low slot of an instruction: its trybble and its operand trytes, the high tryte of a word first (R58, R81, R97). -/
def encodeLow (P : Params) : Instr → Option (Trybble × List Tryte)
  | .litx v => some (litxCode, [v])
  | .word w => some (wordCode, [whi w, wlo w])
  | i =>
    match codeOf (lowTable P) i with
    | some l => some (l, [])
    | none => none

/-- The trytes of an instruction, in the order of their addresses (R81); `none` for a pair that is no instruction. -/
def encode (P : Params) (p : Pair) : Option (List Tryte) :=
  match p.first with
  | .lit v => if p.second = .nop then some [joinTryte P.litHi v] else none
  | i =>
    match codeOf (highTable P) i, encodeLow P p.second with
    | some h, some (l, operands) => some (joinTryte h l :: operands)
    | _, _ => none

/-! ## The host's numbering of an instruction's bits (log 8)

The machine has no bits. For the host's questions a tryte takes 16 bits, as a two's complement integer; the first tryte
is the lowest 16 bits. -/

/-- The integer in the `k`-th 16-bit lane of `w`. -/
def laneValue (w k : Nat) : Int :=
  let x : Nat := w / 65536 ^ k % 65536
  if x < 32768 then (x : Int) else (x : Int) - 65536

/-- Whether a lane holds a tryte. -/
def laneOk (w k : Nat) : Bool :=
  decide (-364 ≤ laneValue w k ∧ laneValue w k ≤ 364)

/-- The trytes of the longest instruction, read from the lanes of `w` above which every bit is 0. -/
def laneTrytes (nbits w : Nat) : List Tryte :=
  let v := w % 2 ^ nbits
  [wrap6 (laneValue v 0), wrap6 (laneValue v 1), wrap6 (laneValue v 2)]

/-- Reading a list of trytes as a store that begins at address `base`. -/
def readList (base : Int) (ts : List Tryte) (a : Int) : Option Tryte :=
  if base ≤ a then ts[(a - base).toNat]? else none

/-- The operation that names an instruction for the host: the one of the high slot, or the one of the low slot where the
high slot holds NOP (log 8). -/
def Pair.leading (p : Pair) : Instr :=
  if p.first = .nop then p.second else p.first

/-- The instruction the decoder reads, under the default parameters, from an instruction whose bits are `w` (log 8). -/
def decodeTableWord (nbits w : Nat) : Option Instr :=
  let v := w % 2 ^ nbits
  if laneOk v 0 && laneOk v 1 && laneOk v 2 then
    match decodeAt Params.std (readList 0 (laneTrytes nbits w)) 0 with
    | .ok d => some d.ops.leading
    | .error _ => none
  else none

end Sys2Proof
end

