-- ==== Sys2Proof/Machine/State.lean ====
section
/-! DEFINITION. The state of the machine (`10_state.md`): `pc`, `estack`, `cstack`, `cy`, `st` with its fault record, and
the store's contents; beside them the OPEN parameters, which no step changes (log 1). -/

namespace Sys2Proof.Machine

/-- The run status (R34). -/
inductive RunStatus where
  | running
  | halted
  | faulted
deriving DecidableEq, Repr

/-- Which stack underflowed (R220): `E` or `C`. -/
inductive StackName where
  | evaluation
  | call
deriving DecidableEq, Repr

/-- The fault record (R34, R220): one of the four fault kinds with its payload. This is the machine's own state; a step that
raises a fault answers a next state that holds the record (log 6). -/
inductive FaultRecord where
  /-- IllegalInstruction (R221): the address of the instruction tryte, and the trybble value. Raised by the decoder. -/
  | illegalInstruction (position : Int) (value : Trybble)
  /-- AddressError (R222): the rejected address. Raised by the decoder, LOAD and STORE. -/
  | addressError (address : Int)
  /-- StackUnderflow (R223): the stack, and the operation variant (R83) that found too few elements on it. -/
  | stackUnderflow (which : StackName) (operation : Operation)
  /-- UnimplementedOpcode (R224): the reserved operation that was dispatched. -/
  | unimplementedOpcode (operation : ReservedOp)
deriving DecidableEq, Repr

/-- The contents of the store as rising (address, tryte) cells (`20_memory.md` R50: one tryte at each integer address;
log 5). What an address without a cell reads as is `unlistedTryte`. -/
abbrev Memory := List (Int × Tryte)

/-- What an address that no cell lists reads as (log 4). -/
def unlistedTryte : Tryte := ty 0

/-- The canonical form: addresses strictly rising, and no cell equal to what an unlisted address reads as. -/
abbrev Memory.wf (m : Memory) : Prop :=
  m.Pairwise (fun c d => c.1 < d.1) ∧ ∀ c ∈ m, c.2 ≠ unlistedTryte

/-- The state of the machine (`10_state.md` R40). -/
structure State where
  /-- The program counter (R26): the address of the next instruction tryte, an unbounded integer. -/
  pc : Int
  /-- The evaluation stack (R24), top first (log 18). -/
  estack : List Tryte
  /-- The call stack (R30), top first (log 18): return addresses, integers of the kind of `pc`. -/
  cstack : List Int
  /-- The cycle counter (R33): completed operations. -/
  cy : Nat
  /-- The run status (R34). -/
  st : RunStatus
  /-- The fault record (R34): present when `st` is FAULTED. -/
  fault : Option FaultRecord
  /-- The store's contents (R38). -/
  mem : Memory
  /-- The OPEN parameters (R39): the model's own field, which no step changes (log 1). -/
  params : Params
deriving DecidableEq, Repr

/-- The reasons a step stops with a host fault: none. Every fault of the spec is taken (R226): it gives a next state with
`st` FAULTED and the fault recorded (log 6). Nothing raises this type, so it is safe. -/
inductive Fault where
deriving DecidableEq, Repr

/-- The reasons a step is refused. -/
inductive Refusal where
  /-- Answered by an arm of `exec` for an instruction that has no meaning yet; no arm answers it. Safe. -/
  | notModelled (mnemonic : String)
  /-- Answered by `step` when `st` is HALTED: no step is enabled (R34, R129; log 7). Safe. -/
  | coreHalted
  /-- Answered by `step` when `st` is FAULTED: no step is enabled (R34, R229; log 7). Safe. -/
  | coreFaulted
deriving DecidableEq, Repr

/-- What a step or the dispatch of an operation answers. -/
abbrev Result := Host.Outcome State Fault Refusal

/-- The construction of the engine (`70_reset_and_hazards.md` R260), for a choice of the parameters, `RESET_PC` and
`MEM_INIT`. -/
def State.construct (P : Params) (resetPc : Int) (memInit : Memory) : State where
  pc := resetPc
  estack := []
  cstack := []
  cy := 0
  st := .running
  fault := none
  mem := memInit
  params := P

/-- The machine after reset under the default parameters of R5: `RESET_PC` is 0 (log 3) and nothing is loaded (logs 4, 9). -/
def State.reset : State := State.construct Params.std 0 []

end Sys2Proof.Machine
end

