-- ==== Sys2Proof/Machine/Ops.lean ====
section
/-! DEFINITION. The named operations over the state (`00_scope.md` R9): the setters, the two stacks, the store's contents and
its port, and fault entry. -/

namespace Sys2Proof.Machine

/-! ## Setters -/

/-- `pc <- target` (R9). -/
def State.setPc (s : State) (target : Int) : State := { s with pc := target }

/-- Replaces the evaluation stack. -/
def State.setEstack (s : State) (S : List Tryte) : State := { s with estack := S }

/-- Replaces the call stack. -/
def State.setCstack (s : State) (C : List Int) : State := { s with cstack := C }

/-- Replaces the store's contents. -/
def State.setMem (s : State) (m : Memory) : State := { s with mem := m }

/-- `cy <- cy + 1` (R124). -/
def State.tick (s : State) : State := { s with cy := s.cy + 1 }

/-- `halt` (R9, R125): the run status becomes HALTED. -/
def State.halt (s : State) : State := { s with st := .halted }

/-! ## Fault entry (R226) -/

/-- `raise`: the run status becomes FAULTED and the fault is recorded; no handler runs, nothing is saved and nothing else
changes (R226). There is no return from a fault (R229). -/
def State.raise (s : State) (f : FaultRecord) : State := { s with st := .faulted, fault := some f }

/-- The numeric code of a fault kind (R220). -/
def FaultRecord.code : FaultRecord → Nat
  | .illegalInstruction _ _ => 1
  | .addressError _ => 2
  | .stackUnderflow _ _ => 3
  | .unimplementedOpcode _ => 4

/-- The fault a failed decode raises (R99, R121). -/
def faultOfDecode : DecodeError → FaultRecord
  | .address a => .addressError a
  | .illegal p v => .illegalInstruction p v

/-! ## The stacks -/

/-- `epush(v)` (R9): a push never faults (R24). -/
def State.epush (s : State) (v : Tryte) : State := s.setEstack (v :: s.estack)

/-- `epush_word(w)` (R9, R22): high tryte first, so that the low tryte ends on top. -/
def State.epushWord (s : State) (w : Word) : State := (s.epush (whi w)).epush (wlo w)

/-- `cpush(p)` (R9). -/
def State.cpush (s : State) (p : Int) : State := s.setCstack (p :: s.cstack)

/-! ## The store's contents (R54) -/

/-- The tryte an address holds. -/
def Memory.get : Memory → Int → Tryte
  | [], _ => unlistedTryte
  | c :: m, a => if c.1 = a then c.2 else Memory.get m a

/-- Takes the cell of an address out. -/
def Memory.remove (m : Memory) (a : Int) : Memory := m.filter fun c => decide (c.1 ≠ a)

/-- Puts a cell before the first cell with a higher address. -/
def Memory.insert : Memory → Int → Tryte → Memory
  | [], a, v => [(a, v)]
  | c :: m, a, v => if a < c.1 then (a, v) :: c :: m else c :: Memory.insert m a v

/-- `mem[a] <- v`, in canonical form: what reads as an unlisted address is not listed. -/
def Memory.set (m : Memory) (a : Int) (v : Tryte) : Memory :=
  if v = unlistedTryte then m.remove a else (m.remove a).insert a v

/-! ## The port of the store (R51, R55) -/

/-- `MemRead(a, 1)` (R9, R54): `none` where the store rejects the address. A read changes nothing. -/
def State.memRead (s : State) (a : Int) : Option Tryte :=
  if s.params.accepts a then some (s.mem.get a) else none

/-- `MemWrite(a, 1, v)` (R9, R54): `none` where the store rejects the address; a rejected write does not write (R55). -/
def State.memWrite (s : State) (a : Int) (v : Tryte) : Option State :=
  if s.params.accepts a then some (s.setMem (s.mem.set a v)) else none

end Sys2Proof.Machine
end

