-- ==== Sys2Proof/Machine/Operands.lean ====
section
/-! DEFINITION. The operand forms of the operations (`10_state.md` R25): so many trytes off the evaluation stack, a word off
it, a return address off the call stack, a tryte through the store's port. Each form checks its fault before anything is
popped: an operation that faults changes nothing (`00_scope.md` R9). The continuation receives the operands and the stack
under them; `op` names the operation in the fault (R220). -/

namespace Sys2Proof.Machine

/-- `StackUnderflow(E)` (R223). -/
def State.underflowE (s : State) (op : Operation) : State := s.raise (.stackUnderflow .evaluation op)

/-- `StackUnderflow(C)` (R223). -/
def State.underflowC (s : State) (op : Operation) : State := s.raise (.stackUnderflow .call op)

/-- One tryte: `a <- epop()`. -/
def State.takeOne (s : State) (op : Operation) (k : Tryte → List Tryte → State) : State :=
  match s.estack with
  | a :: S => k a S
  | _ => s.underflowE op

/-- Two trytes: `b <- epop(); a <- epop()`; the continuation receives `a`, then `b`. -/
def State.takeTwo (s : State) (op : Operation) (k : Tryte → Tryte → List Tryte → State) : State :=
  match s.estack with
  | b :: a :: S => k a b S
  | _ => s.underflowE op

/-- Three trytes: `c <- epop(); b <- epop(); a <- epop()`; the continuation receives `a`, `b`, `c`. -/
def State.takeThree (s : State) (op : Operation) (k : Tryte → Tryte → Tryte → List Tryte → State) : State :=
  match s.estack with
  | c :: b :: a :: S => k a b c S
  | _ => s.underflowE op

/-- A word: `epop_word()` (R9, R22), the low tryte on top. -/
def State.takeWord (s : State) (op : Operation) (k : Word → List Tryte → State) : State :=
  s.takeTwo op fun H L S => k (joinWord H L) S

/-- A word and the tryte under it: `epop_word(); epop()` (R171). -/
def State.takeWordAndOne (s : State) (op : Operation) (k : Word → Tryte → List Tryte → State) : State :=
  s.takeThree op fun v H L S => k (joinWord H L) v S

/-- A return address: `cpop()` (R9). -/
def State.takeReturn (s : State) (op : Operation) (k : Int → List Int → State) : State :=
  match s.cstack with
  | p :: C => k p C
  | _ => s.underflowC op

/-- A tryte read through the port, or `AddressError` (R222). -/
def State.fromStore (s : State) (a : Int) (k : Tryte → State) : State :=
  match s.memRead a with
  | some v => k v
  | none => s.raise (.addressError a)

/-- A tryte written through the port, or `AddressError` (R222). -/
def State.intoStore (s : State) (a : Int) (v : Tryte) (k : State → State) : State :=
  match s.memWrite a v with
  | some t => k t
  | none => s.raise (.addressError a)

end Sys2Proof.Machine
end

