-- ==== Sys2Proof/Machine/Flags.lean ====
section
/-! DEFINITION. The machine has no flags and no condition codes (`10_state.md` R32), so nothing is written here after an
operation. What stands here is what the operations compute and test on trytes: the arithmetic (`43_arithmetic.md` R160 to
R163) and the predicates of the conditional branches (`45_control_transfer.md` R184 to R186). -/

namespace Sys2Proof.Machine

/-- `TRYTE_ADD` (R161, R162): the sum, exact in range, reduced modulo 729 out of range; the carry is dropped (log 10). -/
def tryteAdd (a b : Tryte) : Tryte := wrap6 (a.val + b.val)

/-- Negation (R163): exact, since the range is symmetric. -/
def tryteNeg (a : Tryte) : Tryte := ⟨-a.val, by have h := a.inRange; omega⟩

/-- The predicate of BRN (R184). -/
def isNegative (cond : Tryte) : Bool := decide (cond.val < 0)

/-- The predicate of BRZ (R185). -/
def isZero (cond : Tryte) : Bool := decide (cond.val = 0)

/-- The predicate of BRP (R186). -/
def isPositive (cond : Tryte) : Bool := decide (0 < cond.val)

/-- What the three branches share (R189): the offset on top, the condition under it, both popped whether or not the branch is
taken; a taken branch adds the offset to the pc at dispatch, which is the post-decode pc. -/
def State.branchIf (s : State) (op : Operation) (holds : Tryte → Bool) : State :=
  s.takeTwo op fun cond off S =>
    if holds cond then (s.setEstack S).setPc (s.pc + off.val) else s.setEstack S

end Sys2Proof.Machine
end

