-- ==== Sys2Proof/Machine/Arithmetic.lean ====
section
/-! DEFINITION. Arithmetic (`43_arithmetic.md`): ADD, NEGATE. -/

namespace Sys2Proof.Machine

/-- ADD (R164): `S ++ [a, b]` becomes `S ++ [TRYTE_ADD(a, b)]`. -/
def execAdd (s : State) : Result := .next (s.takeTwo .add fun a b S => s.setEstack (tryteAdd a b :: S))

/-- NEGATE (R165). -/
def execNegate (s : State) : Result := .next (s.takeOne .negate fun a S => s.setEstack (tryteNeg a :: S))

end Sys2Proof.Machine
end

