-- ==== Sys2Proof/Machine/ControlTransfer.lean ====
section
/-! DEFINITION. Control transfer (`45_control_transfer.md`): RETURN, JUMP, CALL, BRN, BRZ, BRP. At dispatch `pc` holds the
post-decode pc (R183). A target is any integer; nothing checks it before the next fetch (R187). -/

namespace Sys2Proof.Machine

/-- RETURN (R180). -/
def execRet (s : State) : Result := .next (s.takeReturn .ret fun t C => (s.setCstack C).setPc t)

/-- JUMP (R181). -/
def execJump (s : State) : Result := .next (s.takeWord .jump fun T S => (s.setEstack S).setPc T.val)

/-- CALL (R182): pops the target, pushes the pc at dispatch on the call stack, jumps. -/
def execCall (s : State) : Result :=
  .next (s.takeWord .call fun T S => ((s.setEstack S).cpush s.pc).setPc T.val)

/-- BRN (R184, R189). -/
def execBrn (s : State) : Result := .next (s.branchIf .brn isNegative)

/-- BRZ (R185, R189). -/
def execBrz (s : State) : Result := .next (s.branchIf .brz isZero)

/-- BRP (R186, R189). -/
def execBrp (s : State) : Result := .next (s.branchIf .brp isPositive)

end Sys2Proof.Machine
end

