-- ==== Sys2Proof/Machine/Literals.lean ====
section
/-! DEFINITION. The literal operations (`41_literals.md`): LIT, LITX, WORD. A push cannot fault. -/

namespace Sys2Proof.Machine

/-- LIT (R140): pushes the low trybble, taken as a tryte (R96). -/
def execLit (imm3 : Trybble) (s : State) : Result := .next (s.epush (widen imm3))

/-- LITX (R141): pushes the operand tryte the decoder read. -/
def execLitx (imm6 : Tryte) (s : State) : Result := .next (s.epush imm6)

/-- WORD (R142): pushes the two trytes of the operand word, high tryte first. -/
def execWord (imm12 : Word) (s : State) : Result := .next (s.epushWord imm12)

end Sys2Proof.Machine
end

