-- ==== Sys2Proof/Machine/MemoryAccess.lean ====
section
/-! DEFINITION. Memory access (`44_memory_access.md`): LOAD, STORE. The address is the full integer value of a word off the
evaluation stack (R172); the core does not reduce it (`20_memory.md` R52). -/

namespace Sys2Proof.Machine

/-- LOAD (R170): `S ++ [H, L]` becomes `S ++ [mem[word(H, L)]]`; StackUnderflow is tested before AddressError. -/
def execLoad (s : State) : Result :=
  .next (s.takeWord .load fun A S => s.fromStore A.val fun v => s.setEstack (v :: S))

/-- STORE (R171): `S ++ [v, H, L]` becomes `S`, and `mem[word(H, L)] <- v`; StackUnderflow is tested before AddressError. -/
def execStore (s : State) : Result :=
  .next (s.takeWordAndOne .store fun A v S => s.intoStore A.val v fun t => t.setEstack S)

end Sys2Proof.Machine
end

