-- ==== Sys2Proof/Machine/Stack.lean ====
section
/-! DEFINITION. Stack manipulation (`42_stack.md`): NOP, DROP, DUP, SWAP, ROTATE. The stack is held top first. -/

namespace Sys2Proof.Machine

/-- NOP (R150): nothing. -/
def execNop (s : State) : Result := .next s

/-- DROP (R151). -/
def execDrop (s : State) : Result := .next (s.takeOne .drop fun _ S => s.setEstack S)

/-- DUP (R152). -/
def execDup (s : State) : Result := .next (s.takeOne .dup fun a S => s.setEstack (a :: a :: S))

/-- SWAP (R153): `S ++ [a, b]` becomes `S ++ [b, a]`. -/
def execSwap (s : State) : Result := .next (s.takeTwo .swap fun a b S => s.setEstack (a :: b :: S))

/-- ROTATE (R154, `90_conflicts.md` C4; log 11): `S ++ [a, b, c]` becomes `S ++ [b, a, c]`, the top stays on top. -/
def execRotate (s : State) : Result :=
  .next (s.takeThree .rotate fun a b c S => s.setEstack (c :: a :: b :: S))

end Sys2Proof.Machine
end

