-- ==== Sys2Proof/Machine/System.lean ====
section
/-! DEFINITION. HALT and the reserved operations (`46_halt_and_reserved.md`). The reserved operations have no execution
semantics: reaching one raises `UnimplementedOpcode` (R203, R224), a fault whose entry R226 describes, so each of them
takes it. -/

namespace Sys2Proof.Machine

/-- HALT (R200): the run status becomes HALTED; nothing else changes. The step counts it (R124, R125). -/
def execHalt (s : State) : Result := .next s.halt

/-- What every reserved operation does (R203). -/
def State.unimplemented (s : State) (op : ReservedOp) : State := s.raise (.unimplementedOpcode op)

/-- INC (R203). -/
def execInc (s : State) : Result := .next (s.unimplemented .inc)

/-- MAX (R203). -/
def execMax (s : State) : Result := .next (s.unimplemented .max)

/-- SHL (R203). -/
def execShl (s : State) : Result := .next (s.unimplemented .shl)

/-- SHR (R203). -/
def execShr (s : State) : Result := .next (s.unimplemented .shr)

/-- SIGNED (R203). -/
def execSigned (s : State) : Result := .next (s.unimplemented .signed)

/-- UNSIGNED (R203). -/
def execUnsigned (s : State) : Result := .next (s.unimplemented .unsigned)

end Sys2Proof.Machine
end

