-- ==== Sys2Proof/Machine/Dispatch.lean ====
section
/-! DEFINITION. Dispatch (`40_execution_loop.md` R127): one arm for each operation, a direct call of its meaning. -/

namespace Sys2Proof.Machine

def exec (i : Instr) (s : State) : Host.Outcome State Fault Refusal :=
  match i with
  | .lit imm => Sys2Proof.Machine.execLit imm s
  | .store => Sys2Proof.Machine.execStore s
  | .load => Sys2Proof.Machine.execLoad s
  | .negate => Sys2Proof.Machine.execNegate s
  | .nop => Sys2Proof.Machine.execNop s
  | .add => Sys2Proof.Machine.execAdd s
  | .rotate => Sys2Proof.Machine.execRotate s
  | .swap => Sys2Proof.Machine.execSwap s
  | .dup => Sys2Proof.Machine.execDup s
  | .drop => Sys2Proof.Machine.execDrop s
  | .halt => Sys2Proof.Machine.execHalt s
  | .litx imm => Sys2Proof.Machine.execLitx imm s
  | .word imm => Sys2Proof.Machine.execWord imm s
  | .ret => Sys2Proof.Machine.execRet s
  | .jump => Sys2Proof.Machine.execJump s
  | .call => Sys2Proof.Machine.execCall s
  | .brn => Sys2Proof.Machine.execBrn s
  | .brz => Sys2Proof.Machine.execBrz s
  | .brp => Sys2Proof.Machine.execBrp s
  | .inc => Sys2Proof.Machine.execInc s
  | .max => Sys2Proof.Machine.execMax s
  | .shl => Sys2Proof.Machine.execShl s
  | .shr => Sys2Proof.Machine.execShr s
  | .signed => Sys2Proof.Machine.execSigned s
  | .unsigned => Sys2Proof.Machine.execUnsigned s

end Sys2Proof.Machine
end

