-- ==== Sys2Proof/Machine/Loop.lean ====
section
/-! DEFINITION. The execution loop (`40_execution_loop.md`): fetching and decoding an instruction, adopting the post-decode
pc, dispatching its two operations in order and counting them; and placing an instruction where the next step fetches.
`Sys2Proof/Machine/Step.lean` only calls what stands here. -/

namespace Sys2Proof.Machine

/-- `decode(pc)` (R120): the decoder on the store as it is at the start of the step (`20_memory.md` R66). -/
def State.fetch (s : State) : Except DecodeError Decoded := decodeAt s.params s.memRead s.pc

/-- What follows the dispatch of an operation in its step: it is counted unless it faulted (R124, R126). -/
def State.retire (s : State) : State :=
  match s.st with
  | .faulted => s
  | .halted => s.tick
  | .running => s.tick

/-- The dispatch of one operation with its count (R120, R124). -/
def dispatchOne (i : Instr) (s : State) : Result :=
  match exec i s with
  | .next t => .next t.retire
  | .fault r => .fault r
  | .refused r => .refused r

/-- The two operations in order (R123): the second is dispatched only if the first left the core running; a fault or a halt
ends the step at once (R120, R125, R126). -/
def dispatchPair (p : Pair) (s : State) : Result :=
  match dispatchOne p.first s with
  | .next t =>
    match t.st with
    | .running => dispatchOne p.second t
    | .halted => .next t
    | .faulted => .next t
  | .fault r => .fault r
  | .refused r => .refused r

/-- One step of a running core (R120): a failed decode changes nothing but the status and the fault record (R121); otherwise
the post-decode pc is adopted before the dispatch (R122). -/
def runStep (s : State) : Result :=
  match s.fetch with
  | .error e => .next (s.raise (faultOfDecode e))
  | .ok d => dispatchPair d.ops (s.setPc d.next)

/-- One step: enabled only when the core is running (R34, R120). -/
def stepCore (s : State) : Result :=
  match s.st with
  | .running => runStep s
  | .halted => .refused .coreHalted
  | .faulted => .refused .coreFaulted

/-- Writes trytes into the store's contents from an address on: a program loaded from outside (`70_reset_and_hazards.md`
R262; log 9). -/
def Memory.load : Memory → Int → List Tryte → Memory
  | m, _, [] => m
  | m, a, t :: ts => Memory.load (m.set a t) (a + 1) ts

/-- The instruction whose bits are `w` (log 8), stored where the next step fetches. -/
def State.placeWord (s : State) (nbits w : Nat) : State := s.setMem (s.mem.load s.pc (laneTrytes nbits w))

end Sys2Proof.Machine
end

