-- ==== Sys2Proof/Machine/Step.lean ====
section
/-! DEFINITION. The step (`40_execution_loop.md` R120) under the names the host uses. -/

namespace Sys2Proof.Machine

/-- One step of the machine (R120). -/
def step (s : State) : Host.Outcome State Fault Refusal := stepCore s

/-- The state with an instruction, given by its bits (log 8), stored where `step` fetches next. Only the store's contents
change. -/
def State.withFetchWord (s : State) (nbits w : Nat) : State := s.placeWord nbits w

end Sys2Proof.Machine
end

