-- ==== Sys2Proof/Safety.lean ====
section
/-! DEFINITION. The terms claims are made in: the invariant of the machine, safe steps and runs of operations, and the
spec's tables that statements refer to. -/

namespace Sys2Proof.Machine

/-- The status and the fault record agree (R34): a record is held exactly in FAULTED. -/
abbrev State.StatusOk (s : State) : Prop := s.fault.isSome = true ↔ s.st = .faulted

/-- The store's contents are a map on `ADDR_VALID` in canonical form (R38, R54). -/
abbrev State.StoreOk (s : State) : Prop := s.mem.wf ∧ ∀ c ∈ s.mem, s.params.accepts c.1 = true

/-- The invariant of the machine: admissible parameters, a well-formed store, a status that agrees with the record. -/
abbrev State.Inv (s : State) : Prop := s.params.Admissible ∧ s.StoreOk ∧ s.StatusOk

/-- The bound of R26: `pc` and every return address within the range of a word. -/
abbrev State.PcBounded (s : State) : Prop :=
  (-265720 ≤ s.pc ∧ s.pc ≤ 265720) ∧ ∀ p ∈ s.cstack, -265720 ≤ p ∧ p ≤ 265720

/-- A safe step: one that raises no fault (`93_implementation_defined.md` U4: a claim takes "no fault recorded" as a
premise). -/
def State.SafeStep (s t : State) : Prop := step s = .next t ∧ t.st ≠ .faulted

/-- Dispatches operations one after another while the core runs (R123), as the claims about sequences of operations need. -/
def runOps : List Instr → State → Result
  | [], s => .next s
  | i :: is, s =>
    match exec i s with
    | .next t => if t.st = .running then runOps is t else .next t
    | .fault r => .fault r
    | .refused r => .refused r

end Sys2Proof.Machine

namespace Sys2Proof

/-- How many trytes an operation pops (the table of R25). -/
def Instr.pops : Instr → Nat
  | .lit _ => 0
  | .store => 3
  | .load => 2
  | .negate => 1
  | .nop => 0
  | .add => 2
  | .rotate => 3
  | .swap => 2
  | .dup => 0
  | .drop => 1
  | .halt => 0
  | .litx _ => 0
  | .word _ => 0
  | .ret => 0
  | .jump => 2
  | .call => 2
  | .brn => 2
  | .brz => 2
  | .brp => 2
  | .inc => 0
  | .max => 0
  | .shl => 0
  | .shr => 0
  | .signed => 0
  | .unsigned => 0

/-- How many trytes an operation pushes (the table of R25). -/
def Instr.pushes : Instr → Nat
  | .lit _ => 1
  | .store => 0
  | .load => 1
  | .negate => 1
  | .nop => 0
  | .add => 1
  | .rotate => 3
  | .swap => 2
  | .dup => 1
  | .drop => 0
  | .halt => 0
  | .litx _ => 1
  | .word _ => 2
  | .ret => 0
  | .jump => 0
  | .call => 0
  | .brn => 0
  | .brz => 0
  | .brp => 0
  | .inc => 0
  | .max => 0
  | .shl => 0
  | .shr => 0
  | .signed => 0
  | .unsigned => 0

/-- How many trytes an operation pops or reads, below which it underflows (R223). -/
def Instr.needs : Instr → Nat
  | .lit _ => 0
  | .store => 3
  | .load => 2
  | .negate => 1
  | .nop => 0
  | .add => 2
  | .rotate => 3
  | .swap => 2
  | .dup => 1
  | .drop => 1
  | .halt => 0
  | .litx _ => 0
  | .word _ => 0
  | .ret => 0
  | .jump => 2
  | .call => 2
  | .brn => 2
  | .brz => 2
  | .brp => 2
  | .inc => 0
  | .max => 0
  | .shl => 0
  | .shr => 0
  | .signed => 0
  | .unsigned => 0

/-- The operations that touch the evaluation stack and nothing else, reads of the store included (files 41 to 44, but
STORE). -/
def Instr.isStackOnly : Instr → Bool
  | .lit _ => true
  | .store => false
  | .load => true
  | .negate => true
  | .nop => true
  | .add => true
  | .rotate => true
  | .swap => true
  | .dup => true
  | .drop => true
  | .halt => false
  | .litx _ => true
  | .word _ => true
  | .ret => false
  | .jump => false
  | .call => false
  | .brn => false
  | .brz => false
  | .brp => false
  | .inc => false
  | .max => false
  | .shl => false
  | .shr => false
  | .signed => false
  | .unsigned => false

/-- The control transfers (`45_control_transfer.md`). -/
def Instr.isTransfer : Instr → Bool
  | .lit _ => false
  | .store => false
  | .load => false
  | .negate => false
  | .nop => false
  | .add => false
  | .rotate => false
  | .swap => false
  | .dup => false
  | .drop => false
  | .halt => false
  | .litx _ => false
  | .word _ => false
  | .ret => true
  | .jump => true
  | .call => true
  | .brn => true
  | .brz => true
  | .brp => true
  | .inc => false
  | .max => false
  | .shl => false
  | .shr => false
  | .signed => false
  | .unsigned => false

/-- The encoding clause of a simple operation: this value, either slot (R84). -/
abbrev EitherSlot (v : Trybble) (i : Instr) : Prop :=
  ∀ P, opOf (highTable P) v = some i ∧ opOf (lowTable P) v = some i

/-- The encoding clause of an extended operation: this value, low slot only (R85, R91). -/
abbrev LowSlotOnly (v : Trybble) (i : Instr) : Prop :=
  ∀ P, opOf (lowTable P) v = some i ∧ ∀ u, opOf (highTable P) u ≠ some i

end Sys2Proof
end

