-- ==== Sys2Proof/Certificates/Slice0/Obligations.lean ====
section
/-! DEFINITION. The statements for the provers. Stacks are held top first: `L :: H :: S` is the spec's `S ++ [H, L]`.
Every statement is for every value of the OPEN parameters the state carries (log 1), but where it names `Params.std` or
`State.reset`. -/

open Sys2Proof Sys2Proof.Machine

/-! ## Reset, the whole machine -/

/-- Construction of the engine (R40, R260: values the spec decides itself, D7), for every choice of the parameters; the reset
state is the one for the default parameters with nothing loaded, every address reading 0 (logs 2, 3, 4: the model's
choices). -/
def Obligations.ConstructionGivesTheResetState : Prop :=
  (∀ P p m, (State.construct P p m).pc = p ∧ (State.construct P p m).estack = [] ∧ (State.construct P p m).cstack = [] ∧
    (State.construct P p m).cy = 0 ∧ (State.construct P p m).st = .running ∧ (State.construct P p m).fault = none ∧
    (State.construct P p m).mem = m ∧ (State.construct P p m).params = P) ∧
  State.reset = State.construct Params.std 0 [] ∧
  ∀ a : Int, State.reset.memRead a = if -29524 ≤ a ∧ a ≤ 29524 then some (ty 0) else none

/-- The invariant holds of every constructed engine whose image is canonical and lies in `ADDR_VALID`; the reset state is such an
engine. The clauses on the reset state are the model's choice of the OPEN parameters: the default instantiation `Params.std`
(log 2) and pc 0 (log 3), with nothing loaded (log 4). -/
def Obligations.ConstructionMeetsTheInvariant : Prop :=
  (∀ P p m, P.Admissible → m.wf → (∀ c ∈ m, P.accepts c.1 = true) → (State.construct P p m).Inv) ∧
  State.reset.Inv ∧ State.reset.PcBounded

/-- Every step keeps the invariant: admissible parameters, a store that is a canonical map on `ADDR_VALID`, and a fault
record exactly in FAULTED. -/
def Obligations.StepKeepsTheInvariant : Prop :=
  ∀ s t : State, s.Inv → step s = .next t → t.Inv

/-- Every step keeps `pc` and the return addresses within the range of a word (R26, the spec's own derivation). -/
def Obligations.StepKeepsPcAndReturnAddressesBounded : Prop :=
  ∀ s t : State, s.params.Admissible → s.PcBounded → step s = .next t → t.PcBounded

/-- No step changes the parameters (R39, R53: `ADDR_VALID` does not change during a run; log 1). -/
def Obligations.StepKeepsTheParameters : Prop :=
  ∀ s t : State, step s = .next t → t.params = s.params

/-- A step is taken exactly when `st` is RUNNING; a halted or faulted core is refused by name (R34, U11, the spec's decision
D11; log 7). -/
def Obligations.StepEnabledExactlyWhenRunning : Prop :=
  ∀ s : State, (s.st = .running → ∃ t, step s = .next t) ∧
    (s.st = .halted → step s = .refused .coreHalted) ∧
    (s.st = .faulted → step s = .refused .coreFaulted)

/-- Dispatch is a total function of the operation variant (R83, R127): every operation answers a next state in every state, and
two mnemonics of one variant (LIT and LITX of one value) answer the same. -/
def Obligations.DispatchAlwaysAnswers : Prop :=
  (∀ (i : Instr) (s : State), ∃ t, exec i s = .next t) ∧
  ∀ (i j : Instr) (s : State), i.operation = j.operation → exec i s = exec j s

/-- A step that completes or halts adds 2 to `cy`; one that faults in the decode or in its first operation adds 0, in its second
adds 1 (R124; that the faulting operation is not counted is the spec's decision D9, log 12). -/
def Obligations.StepCountsItsCompletedOperations : Prop :=
  ∀ s t : State, step s = .next t →
    (t.st ≠ .faulted → t.cy = s.cy + 2) ∧
    (t.st = .faulted →
      ((∃ e, decodeAt s.params s.memRead s.pc = .error e) ∧ t.cy = s.cy) ∨
      ∃ d u, decodeAt s.params s.memRead s.pc = .ok d ∧ exec d.ops.first { s with pc := d.next } = .next u ∧
        ((u.st = .faulted ∧ t.cy = s.cy) ∨
          (u.st = .running ∧ t.cy = s.cy + 1 ∧
            ∃ w, exec d.ops.second { u with cy := u.cy + 1 } = .next w ∧ w.st = .faulted)))

/-- Nothing reads `cy` or the fault record (R33, R34): a step of a core with another counter value, or with another record,
is the same step with that difference carried along. -/
def Obligations.CounterAndRecordAreUnobservable : Prop :=
  ∀ s t : State, step s = .next t →
    (∀ n, step { s with cy := s.cy + n } = .next { t with cy := t.cy + n }) ∧
    ∀ f, step { s with fault := f } = .next (if t.st = .faulted then t else { t with fault := f })

/-- A step runs the decoded pair (R120, R122, R123): the post-decode pc is adopted, the first operation is dispatched and
counted, then the second. A fault of the first ends the step, and a faulting operation is not counted (R124, R126: the spec's
decisions D9 and D10; log 12). A first operation never halts (R125, `DecodedPairsAreWellFormed`). -/
def Obligations.StepRunsTheDecodedPair : Prop :=
  ∀ (s : State) (d : Decoded), s.st = .running → decodeAt s.params s.memRead s.pc = .ok d →
    (∀ t, exec d.ops.first { s with pc := d.next } = .next t → t.st = .faulted → step s = .next t) ∧
    ∀ t u, exec d.ops.first { s with pc := d.next } = .next t → t.st = .running →
      exec d.ops.second { t with cy := t.cy + 1 } = .next u →
      step s = .next (if u.st = .faulted then u else { u with cy := u.cy + 1 })

/-- A fault in the decoder ends the step; only the status and the record change, `pc` stays at the instruction tryte
(R121). -/
def Obligations.DecodeFaultChangesNothingElse : Prop :=
  ∀ s : State, s.st = .running →
    (∀ a, decodeAt s.params s.memRead s.pc = .error (.address a) →
      step s = .next { s with st := .faulted, fault := some (.addressError a) }) ∧
    ∀ p v, decodeAt s.params s.memRead s.pc = .error (.illegal p v) →
      step s = .next { s with st := .faulted, fault := some (.illegalInstruction p v) }

/-- A fault in dispatch (R126, the spec's decision D10; log 12): the faulting operation changes nothing, `pc` holds the
post-decode pc, and an earlier operation of the step keeps its effects and its count. -/
def Obligations.DispatchFaultKeepsEarlierEffects : Prop :=
  ∀ (s : State) (d : Decoded), s.st = .running → decodeAt s.params s.memRead s.pc = .ok d →
    (∀ t, exec d.ops.first { s with pc := d.next } = .next t → t.st = .faulted →
      step s = .next { s with pc := d.next, st := .faulted, fault := t.fault } ∧ t.fault.isSome = true) ∧
    ∀ t u, exec d.ops.first { s with pc := d.next } = .next t → t.st = .running →
      exec d.ops.second { t with cy := t.cy + 1 } = .next u → u.st = .faulted →
      step s = .next { t with cy := t.cy + 1, st := .faulted, fault := u.fault } ∧ u.fault.isSome = true

/-! ## Encoding and decoding -/

/-- Decoding the encoding of a well-formed instruction gives it back, at every address and with every operand, and the
post-decode pc is the address after its last tryte. -/
def Obligations.DecodeInvertsEncode : Prop :=
  ∀ (P : Params) (q : Pair), P.Admissible → q.wellFormed P = true →
    ∃ ws, encode P q = some ws ∧ ∀ read p, (∀ k : Nat, k < ws.length → read (p + k) = ws[k]?) →
      decodeAt P read p = .ok ⟨q, p + ws.length⟩

/-- What decodes is the encoding of the decoded pair: no tryte has two readings, and none of its trits is dropped. -/
def Obligations.EncodeInvertsDecode : Prop :=
  ∀ (P : Params) (read : Int → Option Tryte) (p : Int) (d : Decoded), P.Admissible → decodeAt P read p = .ok d →
    ∃ ws, encode P d.ops = some ws ∧ d.next = p + ws.length ∧ ∀ k : Nat, k < ws.length → read (p + k) = ws[k]?

/-- A decoded pair is well formed, so a low-slot operation is never the first (R91, R125, R271). -/
def Obligations.DecodedPairsAreWellFormed : Prop :=
  ∀ (P : Params) (read : Int → Option Tryte) (p : Int) (d : Decoded), decodeAt P read p = .ok d →
    d.ops.wellFormed P = true ∧ d.ops.first ≠ .halt ∧ d.ops.first.isTransfer = false ∧
    (∀ v, d.ops.first ≠ .litx v) ∧ (∀ w, d.ops.first ≠ .word w) ∧ ∀ v, d.ops.second ≠ .lit v

/-- The decoder reads the store and nothing else, at the start address and at most the two after it (R82, R98); a decode that
succeeds depends only on the trytes it consumed. -/
def Obligations.DecodeReadsOnlyTheInstruction : Prop :=
  ∀ (P : Params) (r1 r2 : Int → Option Tryte) (p : Int),
    (r1 p = r2 p → r1 (p + 1) = r2 (p + 1) → r1 (p + 2) = r2 (p + 2) → decodeAt P r1 p = decodeAt P r2 p) ∧
    ∀ d, decodeAt P r1 p = .ok d → (∀ a, p ≤ a → a < d.next → r2 a = r1 a) → decodeAt P r2 p = .ok d

/-- The length of an instruction is decided by its instruction tryte alone (R98). -/
def Obligations.InstructionTryteDecidesTheLength : Prop :=
  ∀ (P : Params) (read : Int → Option Tryte) (p : Int) (t : Tryte) (d : Decoded),
    read p = some t → decodeAt P read p = .ok d →
    d.next = p + (if hi3 t = P.litHi then 1 else if lo3 t = tb (-12) then 2 else if lo3 t = tb (-11) then 3 else 1)

/-- The inline literal (R89): whatever the low trybble, the decode gives the literal and the placeholder NOP and reads
nothing more; the step pushes the value and counts both operations. -/
def Obligations.InlineLiteralTakesTheWholeTryte : Prop :=
  (∀ (P : Params) (read : Int → Option Tryte) (p : Int) (v : Trybble), read p = some (joinTryte P.litHi v) →
    decodeAt P read p = .ok ⟨⟨.lit v, .nop⟩, p + 1⟩) ∧
  ∀ (s : State) (v : Trybble), s.st = .running → s.memRead s.pc = some (joinTryte s.params.litHi v) →
    ∃ x : Tryte, x.val = v.val ∧ step s = .next { s with pc := s.pc + 1, estack := x :: s.estack, cy := s.cy + 2 }

/-- The high slot (R90): a value of the simple table or of `RESERVED_HI` gives the first operation; any other is illegal,
whatever the low trybble and the operand trytes are. -/
def Obligations.HighTrybbleIsJudgedFirst : Prop :=
  ∀ (P : Params) (read : Int → Option Tryte) (p : Int) (t : Tryte), read p = some t → hi3 t ≠ P.litHi →
    (∀ i d, opOf simpleTable (hi3 t) = some i → decodeAt P read p = .ok d → d.ops.first = i) ∧
    (∀ r d, P.Admissible → (hi3 t, r) ∈ P.reservedHi → decodeAt P read p = .ok d → d.ops.first = r.toInstr) ∧
    ((hi3 t).val ∉ simpleCodes → (∀ r, (hi3 t, r) ∉ P.reservedHi) →
      decodeAt P read p = .error (.illegal p (hi3 t)))

/-- LITX and WORD in the low slot (R94, R95): the operand trytes, in ascending order, high tryte of a word first, and the
address reported when one of them is rejected. -/
def Obligations.LowSlotReadsItsOperandTrytes : Prop :=
  ∀ (P : Params) (read : Int → Option Tryte) (p : Int) (t : Tryte) (i : Instr),
    read p = some t → hi3 t ≠ P.litHi → opOf (highTable P) (hi3 t) = some i →
    (lo3 t = tb (-12) →
      (∀ v, read (p + 1) = some v → decodeAt P read p = .ok ⟨⟨i, .litx v⟩, p + 2⟩) ∧
      (read (p + 1) = none → decodeAt P read p = .error (.address (p + 1)))) ∧
    (lo3 t = tb (-11) →
      (∀ H L, read (p + 1) = some H → read (p + 2) = some L →
        ∃ w : Word, w.val = 729 * H.val + L.val ∧ decodeAt P read p = .ok ⟨⟨i, .word w⟩, p + 3⟩) ∧
      (read (p + 1) = none → decodeAt P read p = .error (.address (p + 1))) ∧
      (∀ H, read (p + 1) = some H → read (p + 2) = none → decodeAt P read p = .error (.address (p + 2))))

/-- The decoder fails exactly in the ways and under the conditions of R99. -/
def Obligations.DecodeFailsExactlyAsListed : Prop :=
  ∀ (P : Params) (read : Int → Option Tryte) (p : Int) (e : DecodeError),
    decodeAt P read p = .error e ↔
      (e = .address p ∧ read p = none) ∨
      ∃ t, read p = some t ∧ hi3 t ≠ P.litHi ∧
        ((e = .illegal p (hi3 t) ∧ opOf (highTable P) (hi3 t) = none) ∨
          ((opOf (highTable P) (hi3 t)).isSome = true ∧
            ((e = .address (p + 1) ∧ (lo3 t = tb (-12) ∨ lo3 t = tb (-11)) ∧ read (p + 1) = none) ∨
              (e = .address (p + 2) ∧ lo3 t = tb (-11) ∧ (read (p + 1)).isSome = true ∧ read (p + 2) = none) ∨
              (e = .illegal p (lo3 t) ∧ lo3 t ≠ tb (-12) ∧ lo3 t ≠ tb (-11) ∧ opOf (lowTable P) (lo3 t) = none))))

/-- A few instruction trytes written out trit by trit from the tables of R84 and R85 decode to what they stand for, with
`LIT_HI` at its default (log 2); and with the default parameters 189 of the 729 trytes are legal instruction trytes (R100,
the spec's own derivation). -/
def Obligations.WrittenOutTrytesDecode : Prop :=
  decodeAt Params.std (readList 40 [ty (243 * 0 + 81 * 0 + 27 * 1 + 9 * -1 + 3 * -1 + 1), ty 0, ty 100]) 40 =
      .ok ⟨⟨.add, .word (wd 100)⟩, 43⟩ ∧
  decodeAt Params.std (readList 40 [ty (243 * -1 + 81 * -1 + 27 * 0 + 9 * 1 + 3 * -1 + -1)]) 40 =
      .ok ⟨⟨.lit (tb 5), .nop⟩, 41⟩ ∧
  decodeAt Params.std (readList 40 [ty (243 * -1 + 81 * 0 + 27 * -1 + 9 * -1 + 3 * 0 + 1)]) 40 =
      .ok ⟨⟨.store, .load⟩, 41⟩ ∧
  decodeAt Params.std (readList 40 [ty (243 * 1 + 81 * -1 + 27 * 0 + 9 * 1 + 3 * 0 + -1)]) 40 =
      .ok ⟨⟨.drop, .ret⟩, 41⟩ ∧
  decodeAt Params.std (readList 40 [ty (243 * 1 + 81 * 0 + 27 * -1 + 9 * 0 + 3 * 0 + 0)]) 40 =
      .error (.illegal 40 (tb 8)) ∧
  (List.range 729).countP (fun n =>
    match decodeAt Params.std (fun _ => some (wrap6 n)) 0 with
    | .ok _ => true
    | .error _ => false) = 189

/-- Splitting and joining (R7): the values, and that the split of a tryte and of a word is unique. -/
def Obligations.SplitAndJoinAreInverse : Prop :=
  (∀ h l, (joinTryte h l).val = 27 * h.val + l.val ∧ hi3 (joinTryte h l) = h ∧ lo3 (joinTryte h l) = l) ∧
  (∀ t, joinTryte (hi3 t) (lo3 t) = t) ∧
  (∀ H L, (joinWord H L).val = 729 * H.val + L.val ∧ whi (joinWord H L) = H ∧ wlo (joinWord H L) = L) ∧
  (∀ w, joinWord (whi w) (wlo w) = w) ∧
  ∀ x : Int, ∃ k : Int, (wrap6 x).val = x + 729 * k

/-! ## The store -/

/-- The port of the store (R54, R55; RAM by the spec's decision D15): an access is answered exactly at the addresses of
`ADDR_VALID`; a read after a write to the same address gives the tryte written; a write changes only that cell. -/
def Obligations.StoreIsARandomAccessMemory : Prop :=
  ∀ (s : State) (a : Int) (v : Tryte),
    (s.memRead a = none ↔ s.params.accepts a = false) ∧ (s.memWrite a v = none ↔ s.params.accepts a = false) ∧
    ∀ t, s.memWrite a v = some t →
      t.memRead a = some v ∧ (∀ b, b ≠ a → t.memRead b = s.memRead b) ∧ t = { s with mem := t.mem }

/-- Code can be overwritten and the new tryte is what the next fetch sees, but the second operation of the storing
instruction is the one decoded before the STORE ran (R36, R66, R270, the spec's own derivations): here a STORE that
overwrites the operand tryte of the LITX beside it. -/
def Obligations.StoreIntoItsOwnOperandTryte : Prop :=
  ∀ (s : State) (old v H L : Tryte) (S : List Tryte), s.params.Admissible → s.st = .running →
    s.memRead s.pc = some (joinTryte (tb (-10)) (tb (-12))) → s.memRead (s.pc + 1) = some old →
    s.estack = L :: H :: v :: S → 729 * H.val + L.val = s.pc + 1 →
    ∃ t, step s = .next t ∧ t.estack = old :: S ∧ t.memRead (s.pc + 1) = some v ∧ t.pc = s.pc + 2 ∧
      t.st = .running ∧ t.cy = s.cy + 2

/-- A LOAD in the low slot sees the STORE of the high slot of its instruction (R63). -/
def Obligations.LoadSeesTheStoreBesideIt : Prop :=
  ∀ (s : State) (v H L : Tryte) (S : List Tryte), s.params.Admissible → s.st = .running →
    s.memRead s.pc = some (joinTryte (tb (-10)) (tb (-8))) → s.estack = L :: H :: v :: L :: H :: S →
    s.params.accepts (729 * H.val + L.val) = true →
    ∃ t, step s = .next t ∧ t.estack = v :: S ∧ t.memRead (729 * H.val + L.val) = some v ∧ t.pc = s.pc + 1 ∧
      t.st = .running ∧ t.cy = s.cy + 2

/-- Only a STORE of the decoded instruction changes what the store holds (R25, R56, R270). -/
def Obligations.OnlyStoreWritesTheStore : Prop :=
  ∀ s t : State, step s = .next t → t.mem ≠ s.mem →
    ∃ d, decodeAt s.params s.memRead s.pc = .ok d ∧ (d.ops.first = .store ∨ d.ops.second = .store)

/-! ## Literals -/

/-- LIT, LITX and WORD complete in every state (R22, R96, R140, R141, R142): LIT pushes the integer value of its trybble, LITX
its tryte, WORD its high tryte and then its low tryte. LIT and LITX are the one variant `LIT(v)`, where `v` is what they push
(R83). -/
def Obligations.LiteralsPushTheirImmediate : Prop :=
  (∀ (s : State) (v : Trybble), ∃ x : Tryte, x.val = v.val ∧ Instr.operation (.lit v) = .lit x ∧
    exec (.lit v) s = .next { s with estack := x :: s.estack }) ∧
  (∀ (s : State) (v : Tryte), Instr.operation (.litx v) = .lit v ∧
    exec (.litx v) s = .next { s with estack := v :: s.estack }) ∧
  ∀ (s : State) (w : Word), ∃ H L : Tryte, w.val = 729 * H.val + L.val ∧
    exec (.word w) s = .next { s with estack := L :: H :: s.estack }

/-- The round trip of literals (R143): decoding and executing an immediate-load encoding built from a value leaves it on top;
for WORD the two operand trytes, the deeper one first. -/
def Obligations.LiteralRoundTrip : Prop :=
  ∀ s : State, s.params.Admissible → s.st = .running →
    (∀ v : Trybble, s.memRead s.pc = some (joinTryte s.params.litHi v) →
      ∃ t x, step s = .next t ∧ t.estack = x :: s.estack ∧ x.val = v.val ∧ t.pc = s.pc + 1) ∧
    (∀ v : Tryte, s.memRead s.pc = some (joinTryte (tb 0) (tb (-12))) → s.memRead (s.pc + 1) = some v →
      ∃ t, step s = .next t ∧ t.estack = v :: s.estack ∧ t.pc = s.pc + 2) ∧
    ∀ H L : Tryte, s.memRead s.pc = some (joinTryte (tb 0) (tb (-11))) → s.memRead (s.pc + 1) = some H →
      s.memRead (s.pc + 2) = some L →
      ∃ t, step s = .next t ∧ t.estack = L :: H :: s.estack ∧ t.pc = s.pc + 3

/-! ## Stack manipulation -/

/-- NOP (R150): nothing; it is counted like any operation, and the tryte 0 is `NOP | NOP`. -/
def Obligations.NopDoesNothing : Prop :=
  EitherSlot (tb 0) .nop ∧ (∀ s : State, exec .nop s = .next s) ∧
  ∀ s : State, s.params.Admissible → s.st = .running → s.memRead s.pc = some (ty 0) →
    step s = .next { s with pc := s.pc + 1, cy := s.cy + 2 }

/-- DROP (R151). -/
def Obligations.DropDiscardsTheTop : Prop :=
  EitherSlot (tb 6) .drop ∧
  (∀ (s : State) (a : Tryte) (S : List Tryte), s.estack = a :: S → exec .drop s = .next { s with estack := S }) ∧
  ∀ s : State, s.estack = [] →
    exec .drop s = .next { s with st := .faulted, fault := some (.stackUnderflow .evaluation .drop) }

/-- DUP (R152; its underflow is the spec's own derivation, C10). -/
def Obligations.DupCopiesTheTop : Prop :=
  EitherSlot (tb 4) .dup ∧
  (∀ (s : State) (a : Tryte) (S : List Tryte), s.estack = a :: S →
    exec .dup s = .next { s with estack := a :: a :: S }) ∧
  ∀ s : State, s.estack = [] →
    exec .dup s = .next { s with st := .faulted, fault := some (.stackUnderflow .evaluation .dup) }

/-- SWAP (R153). -/
def Obligations.SwapExchangesTheTopTwo : Prop :=
  EitherSlot (tb 3) .swap ∧
  (∀ (s : State) (a b : Tryte) (S : List Tryte), s.estack = b :: a :: S →
    exec .swap s = .next { s with estack := a :: b :: S }) ∧
  ∀ s : State, s.estack.length < 2 →
    exec .swap s = .next { s with st := .faulted, fault := some (.stackUnderflow .evaluation .swap) }

/-- ROTATE (R154, the spec's decision D6 on an ambiguous sentence; log 11): the top stays, the two under it change places, so
that twice restores the stack. -/
def Obligations.RotateExchangesTheTwoUnderTheTop : Prop :=
  EitherSlot (tb 2) .rotate ∧
  (∀ (s : State) (a b c : Tryte) (S : List Tryte), s.estack = c :: b :: a :: S →
    exec .rotate s = .next { s with estack := c :: a :: b :: S } ∧
    exec .rotate { s with estack := c :: a :: b :: S } = .next s) ∧
  ∀ s : State, s.estack.length < 3 →
    exec .rotate s = .next { s with st := .faulted, fault := some (.stackUnderflow .evaluation .rotate) }

/-- Stack discipline (R155): a sequence of stack operations that raises no fault changes the depth by the sum of their net
effects. -/
def Obligations.StackDiscipline : Prop :=
  ∀ (is : List Instr) (s t : State),
    (∀ i ∈ is, i = .dup ∨ i = .swap ∨ i = .drop ∨ i = .rotate ∨ i = .nop) →
    s.st = .running → runOps is s = .next t → t.st = .running →
    (t.estack.length : Int) = s.estack.length + is.count .dup - is.count .drop

/-! ## Arithmetic -/

/-- ADD in range is exact (R161). -/
def Obligations.AddIsExactInRange : Prop :=
  ∀ (s : State) (a b : Tryte) (S : List Tryte), s.estack = b :: a :: S →
    -364 ≤ a.val + b.val → a.val + b.val ≤ 364 →
    ∃ r : Tryte, r.val = a.val + b.val ∧ exec .add s = .next { s with estack := r :: S }

/-- ADD out of range wraps by 729 and raises nothing (R162, R164: the spec's decision D5; log 10); with too few operands it
underflows. -/
def Obligations.AddWrapsOutOfRange : Prop :=
  EitherSlot (tb 1) .add ∧
  (∀ (s : State) (a b : Tryte) (S : List Tryte), s.estack = b :: a :: S →
    (364 < a.val + b.val →
      ∃ r : Tryte, r.val = a.val + b.val - 729 ∧ exec .add s = .next { s with estack := r :: S }) ∧
    (a.val + b.val < -364 →
      ∃ r : Tryte, r.val = a.val + b.val + 729 ∧ exec .add s = .next { s with estack := r :: S })) ∧
  ∀ s : State, s.estack.length < 2 →
    exec .add s = .next { s with st := .faulted, fault := some (.stackUnderflow .evaluation .add) }

/-- NEGATE (R163, R165): exact for every tryte; twice restores the value. -/
def Obligations.NegateIsExact : Prop :=
  EitherSlot (tb (-1)) .negate ∧
  (∀ (s : State) (a : Tryte) (S : List Tryte), s.estack = a :: S →
    ∃ r : Tryte, r.val = -a.val ∧ exec .negate s = .next { s with estack := r :: S } ∧
      exec .negate { s with estack := r :: S } = .next s) ∧
  ∀ s : State, s.estack = [] →
    exec .negate s = .next { s with st := .faulted, fault := some (.stackUnderflow .evaluation .negate) }

/-! ## Memory access -/

/-- LOAD (R170): the tryte at the full address replaces it; StackUnderflow before AddressError, and a fault leaves the stack as
it was. -/
def Obligations.LoadReadsTheAddressedTryte : Prop :=
  EitherSlot (tb (-8)) .load ∧
  (∀ (s : State) (H L v : Tryte) (S : List Tryte), s.estack = L :: H :: S →
    s.memRead (729 * H.val + L.val) = some v → exec .load s = .next { s with estack := v :: S }) ∧
  (∀ (s : State) (H L : Tryte) (S : List Tryte), s.estack = L :: H :: S →
    s.params.accepts (729 * H.val + L.val) = false →
    exec .load s = .next { s with st := .faulted, fault := some (.addressError (729 * H.val + L.val)) }) ∧
  ∀ s : State, s.estack.length < 2 →
    exec .load s = .next { s with st := .faulted, fault := some (.stackUnderflow .evaluation .load) }

/-- STORE (R171): the address is popped before the value under it; `mem[word(H, L)] <- v`, every other address as before;
StackUnderflow before AddressError, and a fault leaves the stack and the store as they were. -/
def Obligations.StoreWritesTheAddressedTryte : Prop :=
  EitherSlot (tb (-10)) .store ∧
  (∀ (s : State) (v H L : Tryte) (S : List Tryte), s.estack = L :: H :: v :: S →
    s.params.accepts (729 * H.val + L.val) = true →
    ∃ m, exec .store s = .next { s with estack := S, mem := m } ∧ Memory.get m (729 * H.val + L.val) = v ∧
      ∀ a, a ≠ 729 * H.val + L.val → Memory.get m a = s.mem.get a) ∧
  (∀ (s : State) (v H L : Tryte) (S : List Tryte), s.estack = L :: H :: v :: S →
    s.params.accepts (729 * H.val + L.val) = false →
    exec .store s = .next { s with st := .faulted, fault := some (.addressError (729 * H.val + L.val)) }) ∧
  ∀ s : State, s.estack.length < 3 →
    exec .store s = .next { s with st := .faulted, fault := some (.stackUnderflow .evaluation .store) }

/-! ## Control transfer -/

/-- RETURN (R180). -/
def Obligations.ReturnPopsTheCallStack : Prop :=
  LowSlotOnly (tb 8) .ret ∧
  (∀ (s : State) (p : Int) (C : List Int), s.cstack = p :: C → exec .ret s = .next { s with pc := p, cstack := C }) ∧
  ∀ s : State, s.cstack = [] →
    exec .ret s = .next { s with st := .faulted, fault := some (.stackUnderflow .call .ret) }

/-- JUMP (R181): absolute, to any integer a word can name. -/
def Obligations.JumpGoesToThePoppedWord : Prop :=
  LowSlotOnly (tb 9) .jump ∧
  (∀ (s : State) (H L : Tryte) (S : List Tryte), s.estack = L :: H :: S →
    exec .jump s = .next { s with pc := 729 * H.val + L.val, estack := S }) ∧
  ∀ s : State, s.estack.length < 2 →
    exec .jump s = .next { s with st := .faulted, fault := some (.stackUnderflow .evaluation .jump) }

/-- CALL (R182): pushes the pc at dispatch on the call stack and jumps. -/
def Obligations.CallSavesThePcAndJumps : Prop :=
  LowSlotOnly (tb 10) .call ∧
  (∀ (s : State) (H L : Tryte) (S : List Tryte), s.estack = L :: H :: S →
    exec .call s = .next { s with pc := 729 * H.val + L.val, estack := S, cstack := s.pc :: s.cstack }) ∧
  ∀ s : State, s.estack.length < 2 →
    exec .call s = .next { s with st := .faulted, fault := some (.stackUnderflow .evaluation .call) }

/-- A RETURN with the call stack a CALL left restores the pc that CALL saved, and the call stack before the CALL (R180,
R188). -/
def Obligations.ReturnRestoresTheCallersPc : Prop :=
  ∀ s t : State, exec .call s = .next t → 2 ≤ s.estack.length →
    ∀ u : State, u.cstack = t.cstack → exec .ret u = .next { u with pc := s.pc, cstack := s.cstack }

/-- BRN, BRZ and BRP (R184, R185, R186, R189): both operands are popped whether or not the branch is taken; a taken branch adds
the offset to the pc at dispatch. -/
def Obligations.BranchesTestTheSign : Prop :=
  (LowSlotOnly (tb 11) .brn ∧ LowSlotOnly (tb 12) .brz ∧ LowSlotOnly (tb 13) .brp) ∧
  (∀ (s : State) (cond off : Tryte) (S : List Tryte), s.estack = off :: cond :: S →
    exec .brn s = .next { s with pc := if cond.val < 0 then s.pc + off.val else s.pc, estack := S } ∧
    exec .brz s = .next { s with pc := if cond.val = 0 then s.pc + off.val else s.pc, estack := S } ∧
    exec .brp s = .next { s with pc := if 0 < cond.val then s.pc + off.val else s.pc, estack := S }) ∧
  ∀ s : State, s.estack.length < 2 →
    exec .brn s = .next { s with st := .faulted, fault := some (.stackUnderflow .evaluation .brn) } ∧
    exec .brz s = .next { s with st := .faulted, fault := some (.stackUnderflow .evaluation .brz) } ∧
    exec .brp s = .next { s with st := .faulted, fault := some (.stackUnderflow .evaluation .brp) }

/-- A taken branch at `p0` goes to `p0 + 1 + off`, one not taken to `p0 + 1` (R122, R189, R272): here `NOP | BRZ`. -/
def Obligations.BranchOffsetsCountFromTheNextInstruction : Prop :=
  ∀ (s : State) (cond off : Tryte) (S : List Tryte), s.params.Admissible → s.st = .running →
    s.memRead s.pc = some (joinTryte (tb 0) (tb 12)) → s.estack = off :: cond :: S →
    step s = .next { s with
      pc := if cond.val = 0 then s.pc + 1 + off.val else s.pc + 1, estack := S, cy := s.cy + 2 }

/-- An instruction whose second operation is a control transfer or HALT is one tryte long, so the pc a CALL saves is the
address of the tryte after it (R182, R183, the spec's own derivation). -/
def Obligations.TransfersAreOneTryteLong : Prop :=
  ∀ (P : Params) (read : Int → Option Tryte) (p : Int) (d : Decoded), decodeAt P read p = .ok d →
    (d.ops.second.isTransfer = true ∨ d.ops.second = .halt) → d.next = p + 1

/-- A pc outside `ADDR_VALID` faults at the fetch, with pc unchanged (R29, R187, the spec's own derivation). -/
def Obligations.InvalidPcFaultsAtTheFetch : Prop :=
  ∀ s : State, s.st = .running → s.params.accepts s.pc = false →
    step s = .next { s with st := .faulted, fault := some (.addressError s.pc) }

/-- Only CALL and RETURN change the call stack, and they stand in the low slot (R30). -/
def Obligations.OnlyCallAndReturnTouchTheCallStack : Prop :=
  ∀ s t : State, step s = .next t → t.cstack ≠ s.cstack →
    ∃ d, decodeAt s.params s.memRead s.pc = .ok d ∧ (d.ops.second = .call ∨ d.ops.second = .ret)

/-! ## HALT, the reserved operations, faults -/

/-- HALT (R200): the status becomes HALTED and nothing else changes; a step that dispatches it keeps the post-decode pc and
leaves the stacks and the store as the high-slot operation left them, with both operations counted. -/
def Obligations.HaltEndsTheRun : Prop :=
  LowSlotOnly (tb (-13)) .halt ∧ (∀ s : State, exec .halt s = .next { s with st := .halted }) ∧
  ∀ (s t : State) (d : Decoded), s.st = .running → decodeAt s.params s.memRead s.pc = .ok d → d.ops.second = .halt →
    exec d.ops.first { s with pc := d.next } = .next t → t.st = .running →
    step s = .next { t with pc := s.pc + 1, cy := s.cy + 2, st := .halted }

/-- INC, MAX, SHL, SHR, SIGNED and UNSIGNED always raise UnimplementedOpcode and change nothing else (R203, R224: the treatment
the spec's decision D4 takes; log 20). -/
def Obligations.ReservedOperationsRaiseUnimplementedOpcode : Prop :=
  ∀ s : State,
    exec .inc s = .next { s with st := .faulted, fault := some (.unimplementedOpcode .inc) } ∧
    exec .max s = .next { s with st := .faulted, fault := some (.unimplementedOpcode .max) } ∧
    exec .shl s = .next { s with st := .faulted, fault := some (.unimplementedOpcode .shl) } ∧
    exec .shr s = .next { s with st := .faulted, fault := some (.unimplementedOpcode .shr) } ∧
    exec .signed s = .next { s with st := .faulted, fault := some (.unimplementedOpcode .signed) } ∧
    exec .unsigned s = .next { s with st := .faulted, fault := some (.unimplementedOpcode .unsigned) }

/-- A reserved low-slot value decodes and faults only when it is dispatched, after the high-slot operation ran and was counted
(R101, R203; the status and counts by the spec's decisions D9 and D10, log 12): here beside a DROP. -/
def Obligations.ReservedValueFaultsAtDispatch : Prop :=
  ∀ (s : State) (l : Trybble) (r : ReservedOp) (a : Tryte) (S : List Tryte), s.params.Admissible → s.st = .running →
    (l, r) ∈ s.params.reservedLo → s.params.litHi ≠ tb 6 → s.memRead s.pc = some (joinTryte (tb 6) l) →
    s.estack = a :: S →
    step s = .next { s with pc := s.pc + 1, estack := S, cy := s.cy + 1, st := .faulted,
                            fault := some (.unimplementedOpcode r) }

/-- Which faults an operation can raise (R220 to R224): an underflow of the evaluation stack by an operation that needs
operands, of the call stack by RETURN, an address error by LOAD or STORE, an unimplemented opcode by the reserved operation
itself, and never an illegal instruction; and the codes of the four kinds (the spec's decision D12, log 15). -/
def Obligations.DispatchRaisesOnlyTheTabledFaults : Prop :=
  ((∀ p v, (FaultRecord.illegalInstruction p v).code = 1) ∧ (∀ a, (FaultRecord.addressError a).code = 2) ∧
    (∀ w i, (FaultRecord.stackUnderflow w i).code = 3) ∧ ∀ r, (FaultRecord.unimplementedOpcode r).code = 4) ∧
  ∀ (i : Instr) (s t : State), s.st = .running → exec i s = .next t → t.st = .faulted →
    (∃ op, t.fault = some (.stackUnderflow .evaluation op) ∧ op = i.operation ∧ s.estack.length < i.needs) ∨
    (t.fault = some (.stackUnderflow .call .ret) ∧ i = .ret ∧ s.cstack = []) ∨
    (∃ a, t.fault = some (.addressError a) ∧ (i = .load ∨ i = .store) ∧ s.params.accepts a = false) ∨
    ∃ r, t.fault = some (.unimplementedOpcode r) ∧ i = r.toInstr

/-- An operation underflows the evaluation stack exactly when it holds fewer trytes than the operation needs, and then it
changes nothing else (R223; "changes nothing" by the spec's decision D10, log 12). -/
def Obligations.UnderflowExactlyWhenTooFew : Prop :=
  ∀ (i : Instr) (s : State), s.st = .running →
    (s.estack.length < i.needs ↔
      exec i s = .next { s with st := .faulted, fault := some (.stackUnderflow .evaluation i.operation) })

/-- An operation that completes pops and pushes as many trytes as the table of R25 says: what is left of the stack under the
trytes it popped is what is left of the new stack under the trytes it pushed. -/
def Obligations.OperationsPopAndPushAsTabled : Prop :=
  ∀ (i : Instr) (s t : State), exec i s = .next t → t.st ≠ .faulted →
    i.pops ≤ s.estack.length ∧ i.pushes ≤ t.estack.length ∧
    t.estack.length + i.pops = s.estack.length + i.pushes ∧ t.estack.drop i.pushes = s.estack.drop i.pops

/-! ## Frames -/

/-- The frame of LIT, LITX, WORD, NOP, DROP, DUP, SWAP, ROTATE, ADD, NEGATE and LOAD: they change the evaluation stack, or they
fault and change the status and the record only; every address reads as before. -/
def Obligations.StackOperationsFrame : Prop :=
  ∀ (i : Instr) (s t : State), i.isStackOnly = true → exec i s = .next t →
    t.pc = s.pc ∧ t.cstack = s.cstack ∧ t.cy = s.cy ∧ t.params = s.params ∧
    (∀ a, t.mem.get a = s.mem.get a) ∧ (∀ a, t.memRead a = s.memRead a) ∧
    ((t.st = s.st ∧ t.fault = s.fault) ∨ (t.st = .faulted ∧ t.fault.isSome = true ∧ t.estack = s.estack))

/-- The frame of STORE: where the store accepts the address, it pops three trytes, leaves what is under them, and writes one cell,
the one at the address its meaning computes from the two topmost trytes; or it faults and changes the status and the record only. -/
def Obligations.StoreFrame : Prop :=
  ∀ s t : State, exec .store s = .next t →
    t.pc = s.pc ∧ t.cstack = s.cstack ∧ t.cy = s.cy ∧ t.params = s.params ∧
    (∀ (v H L : Tryte) (S : List Tryte), s.estack = L :: H :: v :: S →
      (s.params.accepts (joinWord H L).val = true → t.estack = S ∧ t.st = s.st) ∧
      ∀ a, a ≠ (joinWord H L).val → t.mem.get a = s.mem.get a) ∧
    (s.estack.length < 3 → ∀ a, t.mem.get a = s.mem.get a) ∧
    ((t.st = s.st ∧ t.fault = s.fault) ∨
      (t.st = .faulted ∧ t.fault.isSome = true ∧ t.estack = s.estack ∧ ∀ a, t.mem.get a = s.mem.get a))

/-- The frame of RETURN, JUMP, CALL, BRN, BRZ and BRP: the store and the counter are unchanged, RETURN leaves the evaluation
stack alone, only CALL and RETURN touch the call stack, and a fault changes the status and the record only. -/
def Obligations.TransfersFrame : Prop :=
  ∀ (i : Instr) (s t : State), i.isTransfer = true → exec i s = .next t →
    t.cy = s.cy ∧ t.params = s.params ∧ (∀ a, t.mem.get a = s.mem.get a) ∧
    (i = .ret → t.estack = s.estack) ∧ (i ≠ .call → i ≠ .ret → t.cstack = s.cstack) ∧
    ((t.st = s.st ∧ t.fault = s.fault) ∨
      (t.st = .faulted ∧ t.fault.isSome = true ∧ t.pc = s.pc ∧ t.estack = s.estack ∧ t.cstack = s.cstack))

/-- The frame of HALT and of the reserved operations: only the status, and for a reserved operation the record, change. -/
def Obligations.HaltAndReservedFrame : Prop :=
  ∀ (i : Instr) (s t : State), (i = .halt ∨ ∃ r : ReservedOp, i = r.toInstr) → exec i s = .next t →
    t.pc = s.pc ∧ t.estack = s.estack ∧ t.cstack = s.cstack ∧ t.cy = s.cy ∧ t.params = s.params ∧
    (∀ a, t.mem.get a = s.mem.get a) ∧ (i = .halt → t.fault = s.fault)

/-- What lies under the operands is never read: a safe step does the same on a deeper evaluation stack and leaves the added
part as it was (R8, R24: the "untouched lower part" of the stack). -/
def Obligations.LowerPartOfTheStackIsUntouched : Prop :=
  ∀ (s t : State) (X : List Tryte), s.SafeStep t →
    State.SafeStep { s with estack := s.estack ++ X } { t with estack := t.estack ++ X }
end

