-- ==== Sys2Proof/Laws/Decode.lean ====
section
/-! SUPPORT. Values after splitting and joining (`00_scope.md` R7), the operation variants (R83), table look-up, and that no two rows of a decode table
overlap (`30_encoding.md` R93). -/

namespace Sys2Proof

/-! ## Values -/

@[simp] theorem lo3_val (t : Tryte) : (lo3 t).val = (t.val + 13) % 27 - 13 := rfl
@[simp] theorem hi3_val (t : Tryte) : (hi3 t).val = (t.val - ((t.val + 13) % 27 - 13)) / 27 := rfl
@[simp] theorem joinTryte_val (h l : Trybble) : (joinTryte h l).val = 27 * h.val + l.val := rfl
@[simp] theorem wlo_val (w : Word) : (wlo w).val = (w.val + 364) % 729 - 364 := rfl
@[simp] theorem whi_val (w : Word) : (whi w).val = (w.val - ((w.val + 364) % 729 - 364)) / 729 := rfl
@[simp] theorem joinWord_val (H L : Tryte) : (joinWord H L).val = 729 * H.val + L.val := rfl
@[simp] theorem wrap6_val (x : Int) : (wrap6 x).val = (x + 364) % 729 - 364 := rfl
@[simp] theorem widen_val (v : Trybble) : (widen v).val = v.val := rfl

/-! ## Operation variants (R83) -/

theorem widen_inj {u v : Trybble} (h : widen u = widen v) : u = v :=
  Trybble.ext (congrArg Tryte.val h)

/-- LIT against LITX is the only place where two mnemonics are one variant. -/
theorem Instr.eq_of_operation_eq {i j : Instr} (h : i.operation = j.operation) (hl : i.isInline = j.isInline) : i = j := by
  cases i <;> cases j <;> first
    | rfl
    | (cases h; done)
    | (cases hl; done)
    | (injection h with h; first | rw [h] | rw [widen_inj h])

/-! ## Tables -/

/-- A look-up answers a row of the table. -/
theorem mem_of_opOf {T : List (Trybble × Instr)} {v : Trybble} {i : Instr} (h : opOf T v = some i) : (v, i) ∈ T := by
  induction T with
  | nil => cases h
  | cons r T ih =>
    by_cases hr : r.1 = v
    · simp only [opOf, hr, if_true, Option.some.injEq] at h
      exact List.mem_cons.mpr (.inl (by rw [← hr, ← h]))
    · simp only [opOf, hr, if_false] at h
      exact List.mem_cons.mpr (.inr (ih h))

/-- The value of an operation is a row of the table. -/
theorem mem_of_codeOf {T : List (Trybble × Instr)} {v : Trybble} {i : Instr} (h : codeOf T i = some v) : (v, i) ∈ T := by
  induction T with
  | nil => cases h
  | cons r T ih =>
    by_cases hr : r.2 = i
    · simp only [codeOf, hr, if_true, Option.some.injEq] at h
      exact List.mem_cons.mpr (.inl (by rw [← hr, ← h]))
    · simp only [codeOf, hr, if_false] at h
      exact List.mem_cons.mpr (.inr (ih h))

/-- Where no value stands twice, every row is what its value looks up. -/
theorem opOf_of_mem {T : List (Trybble × Instr)} (hn : (T.map Prod.fst).Nodup) {v : Trybble} {i : Instr}
    (h : (v, i) ∈ T) : opOf T v = some i := by
  induction T with
  | nil => cases h
  | cons r T ih =>
    rw [List.map_cons, List.nodup_cons] at hn
    rcases List.mem_cons.mp h with rfl | h
    · simp [opOf]
    · have hr : r.1 ≠ v := fun e => hn.1 (e ▸ List.mem_map_of_mem (f := Prod.fst) h)
      simpa [opOf, hr] using ih hn.2 h

/-- Where no operation stands twice, every row is what its operation looks up. -/
theorem codeOf_of_mem {T : List (Trybble × Instr)} (hn : (T.map Prod.snd).Nodup) {v : Trybble} {i : Instr}
    (h : (v, i) ∈ T) : codeOf T i = some v := by
  induction T with
  | nil => cases h
  | cons r T ih =>
    rw [List.map_cons, List.nodup_cons] at hn
    rcases List.mem_cons.mp h with rfl | h
    · simp [codeOf]
    · have hr : r.2 ≠ i := fun e => hn.1 (e ▸ List.mem_map_of_mem (f := Prod.snd) h)
      simpa [codeOf, hr] using ih hn.2 h

/-- No value stands in two rows of the fixed low-slot tables, and none of them is a value that takes operand trytes. -/
theorem fixed_low_values_nodup :
    ((ext0Table ++ simpleTable).map Prod.fst ++ [litxCode, wordCode]).Nodup := by decide

/-- No operation stands in two rows of the fixed low-slot tables. -/
theorem fixed_low_operations_nodup : ((ext0Table ++ simpleTable).map Prod.snd).Nodup := by decide

/-- The reserved operations are distinct operations. -/
theorem ReservedOp.toInstr_injective : Function.Injective ReservedOp.toInstr := by
  intro a b h
  cases a <;> cases b <;> first | rfl | cases h

/-- The nine values of the simple table are the assigned values of R92. -/
theorem simpleTable_values : simpleTable.map (fun r => r.1.val) = simpleCodes := by decide

/-- No reserved operation stands in a fixed table. -/
theorem reserved_not_fixed (r : ReservedOp) : r.toInstr ∉ (ext0Table ++ simpleTable).map Prod.snd := by
  cases r <;> decide

/-! ## The decoder -/

/-- Everything a decode that succeeds can come from: an inline literal, or a high-slot operation beside LITX, WORD or an
operation without operand trytes. -/
theorem decodeAt_inv {P : Params} {read : Int → Option Tryte} {p : Int} {d : Decoded} (h : decodeAt P read p = .ok d) :
    ∃ t, read p = some t ∧
      ((hi3 t = P.litHi ∧ d = ⟨⟨.lit (lo3 t), .nop⟩, p + 1⟩) ∨
        (hi3 t ≠ P.litHi ∧ opOf (highTable P) (hi3 t) = some d.ops.first ∧
          ((lo3 t = litxCode ∧ ∃ v, read (p + 1) = some v ∧ d.ops.second = .litx v ∧ d.next = p + 2) ∨
            (lo3 t = wordCode ∧ ∃ H L, read (p + 1) = some H ∧ read (p + 2) = some L ∧
              d.ops.second = .word (joinWord H L) ∧ d.next = p + 3) ∨
            (lo3 t ≠ litxCode ∧ lo3 t ≠ wordCode ∧ opOf (lowTable P) (lo3 t) = some d.ops.second ∧ d.next = p + 1)))) := by
  have hne : wordCode ≠ litxCode := by decide
  unfold decodeAt readOr at h
  cases ht : read p with
  | none => simp [ht] at h
  | some t =>
    simp only [ht] at h
    refine ⟨t, rfl, ?_⟩
    by_cases hl : hi3 t = P.litHi
    · simp only [hl, if_true, Except.ok.injEq] at h
      exact .inl ⟨hl, h.symm⟩
    · simp only [hl, if_false] at h
      refine .inr ⟨hl, ?_⟩
      cases h1 : opOf (highTable P) (hi3 t) with
      | none => simp [h1] at h
      | some i =>
        simp only [h1] at h
        unfold decodeLow readOr at h
        by_cases a : lo3 t = litxCode
        · simp only [a, if_true] at h
          cases h2 : read (p + 1) with
          | none => simp [h2] at h
          | some v => simp [h2] at h; subst h; simp [a]
        · by_cases b : lo3 t = wordCode
          · simp only [b, hne, if_false, if_true] at h
            cases h2 : read (p + 1) with
            | none => simp [h2] at h
            | some H =>
              cases h3 : read (p + 2) with
              | none => simp [h2, h3] at h
              | some L => simp [h2, h3] at h; subst h; simp [b, hne]
          · simp only [a, b, if_false] at h
            cases h2 : opOf (lowTable P) (lo3 t) with
            | none => simp [h2] at h
            | some j => simp [h2] at h; subst h; simp [a, b]

end Sys2Proof
end

