-- ==== Sys2Proof/Laws/State.lean ====
section
/-! SUPPORT. Each field after each update of the state, once. -/

namespace Sys2Proof.Machine

@[simp] theorem State.setPc_pc (s : State) (p : Int) : (s.setPc p).pc = p := rfl
@[simp] theorem State.setPc_estack (s : State) (p : Int) : (s.setPc p).estack = s.estack := rfl
@[simp] theorem State.setPc_cstack (s : State) (p : Int) : (s.setPc p).cstack = s.cstack := rfl
@[simp] theorem State.setPc_cy (s : State) (p : Int) : (s.setPc p).cy = s.cy := rfl
@[simp] theorem State.setPc_st (s : State) (p : Int) : (s.setPc p).st = s.st := rfl
@[simp] theorem State.setPc_fault (s : State) (p : Int) : (s.setPc p).fault = s.fault := rfl
@[simp] theorem State.setPc_mem (s : State) (p : Int) : (s.setPc p).mem = s.mem := rfl
@[simp] theorem State.setPc_params (s : State) (p : Int) : (s.setPc p).params = s.params := rfl

@[simp] theorem State.setEstack_pc (s : State) (S : List Tryte) : (s.setEstack S).pc = s.pc := rfl
@[simp] theorem State.setEstack_estack (s : State) (S : List Tryte) : (s.setEstack S).estack = S := rfl
@[simp] theorem State.setEstack_cstack (s : State) (S : List Tryte) : (s.setEstack S).cstack = s.cstack := rfl
@[simp] theorem State.setEstack_cy (s : State) (S : List Tryte) : (s.setEstack S).cy = s.cy := rfl
@[simp] theorem State.setEstack_st (s : State) (S : List Tryte) : (s.setEstack S).st = s.st := rfl
@[simp] theorem State.setEstack_fault (s : State) (S : List Tryte) : (s.setEstack S).fault = s.fault := rfl
@[simp] theorem State.setEstack_mem (s : State) (S : List Tryte) : (s.setEstack S).mem = s.mem := rfl
@[simp] theorem State.setEstack_params (s : State) (S : List Tryte) : (s.setEstack S).params = s.params := rfl

@[simp] theorem State.setCstack_pc (s : State) (C : List Int) : (s.setCstack C).pc = s.pc := rfl
@[simp] theorem State.setCstack_estack (s : State) (C : List Int) : (s.setCstack C).estack = s.estack := rfl
@[simp] theorem State.setCstack_cstack (s : State) (C : List Int) : (s.setCstack C).cstack = C := rfl
@[simp] theorem State.setCstack_cy (s : State) (C : List Int) : (s.setCstack C).cy = s.cy := rfl
@[simp] theorem State.setCstack_st (s : State) (C : List Int) : (s.setCstack C).st = s.st := rfl
@[simp] theorem State.setCstack_fault (s : State) (C : List Int) : (s.setCstack C).fault = s.fault := rfl
@[simp] theorem State.setCstack_mem (s : State) (C : List Int) : (s.setCstack C).mem = s.mem := rfl
@[simp] theorem State.setCstack_params (s : State) (C : List Int) : (s.setCstack C).params = s.params := rfl

@[simp] theorem State.setMem_pc (s : State) (m : Memory) : (s.setMem m).pc = s.pc := rfl
@[simp] theorem State.setMem_estack (s : State) (m : Memory) : (s.setMem m).estack = s.estack := rfl
@[simp] theorem State.setMem_cstack (s : State) (m : Memory) : (s.setMem m).cstack = s.cstack := rfl
@[simp] theorem State.setMem_cy (s : State) (m : Memory) : (s.setMem m).cy = s.cy := rfl
@[simp] theorem State.setMem_st (s : State) (m : Memory) : (s.setMem m).st = s.st := rfl
@[simp] theorem State.setMem_fault (s : State) (m : Memory) : (s.setMem m).fault = s.fault := rfl
@[simp] theorem State.setMem_mem (s : State) (m : Memory) : (s.setMem m).mem = m := rfl
@[simp] theorem State.setMem_params (s : State) (m : Memory) : (s.setMem m).params = s.params := rfl

@[simp] theorem State.tick_pc (s : State) : (s.tick).pc = s.pc := rfl
@[simp] theorem State.tick_estack (s : State) : (s.tick).estack = s.estack := rfl
@[simp] theorem State.tick_cstack (s : State) : (s.tick).cstack = s.cstack := rfl
@[simp] theorem State.tick_cy (s : State) : (s.tick).cy = s.cy + 1 := rfl
@[simp] theorem State.tick_st (s : State) : (s.tick).st = s.st := rfl
@[simp] theorem State.tick_fault (s : State) : (s.tick).fault = s.fault := rfl
@[simp] theorem State.tick_mem (s : State) : (s.tick).mem = s.mem := rfl
@[simp] theorem State.tick_params (s : State) : (s.tick).params = s.params := rfl

@[simp] theorem State.halt_pc (s : State) : (s.halt).pc = s.pc := rfl
@[simp] theorem State.halt_estack (s : State) : (s.halt).estack = s.estack := rfl
@[simp] theorem State.halt_cstack (s : State) : (s.halt).cstack = s.cstack := rfl
@[simp] theorem State.halt_cy (s : State) : (s.halt).cy = s.cy := rfl
@[simp] theorem State.halt_st (s : State) : (s.halt).st = .halted := rfl
@[simp] theorem State.halt_fault (s : State) : (s.halt).fault = s.fault := rfl
@[simp] theorem State.halt_mem (s : State) : (s.halt).mem = s.mem := rfl
@[simp] theorem State.halt_params (s : State) : (s.halt).params = s.params := rfl

@[simp] theorem State.raise_pc (s : State) (f : FaultRecord) : (s.raise f).pc = s.pc := rfl
@[simp] theorem State.raise_estack (s : State) (f : FaultRecord) : (s.raise f).estack = s.estack := rfl
@[simp] theorem State.raise_cstack (s : State) (f : FaultRecord) : (s.raise f).cstack = s.cstack := rfl
@[simp] theorem State.raise_cy (s : State) (f : FaultRecord) : (s.raise f).cy = s.cy := rfl
@[simp] theorem State.raise_st (s : State) (f : FaultRecord) : (s.raise f).st = .faulted := rfl
@[simp] theorem State.raise_fault (s : State) (f : FaultRecord) : (s.raise f).fault = some f := rfl
@[simp] theorem State.raise_mem (s : State) (f : FaultRecord) : (s.raise f).mem = s.mem := rfl
@[simp] theorem State.raise_params (s : State) (f : FaultRecord) : (s.raise f).params = s.params := rfl

@[simp] theorem State.epush_eq (s : State) (v : Tryte) : s.epush v = s.setEstack (v :: s.estack) := rfl

@[simp] theorem State.epushWord_eq (s : State) (w : Word) :
    s.epushWord w = s.setEstack (wlo w :: whi w :: s.estack) := rfl

@[simp] theorem State.cpush_eq (s : State) (p : Int) : s.cpush p = s.setCstack (p :: s.cstack) := rfl

end Sys2Proof.Machine
end

