-- ==== Sys2Proof/Laws/Memory.lean ====
section
/-! SUPPORT. The store's contents: a read after a write, and that every memory operation keeps the canonical form
(`20_memory.md` R54). -/

namespace Sys2Proof.Machine

/-! ## Reads after writes -/

theorem Memory.get_remove_same (m : Memory) (a : Int) : (m.remove a).get a = unlistedTryte := by
  induction m with
  | nil => rfl
  | cons c m ih =>
    by_cases h : c.1 = a
    · simpa [Memory.remove, h] using ih
    · simpa [Memory.remove, h, Memory.get] using ih

theorem Memory.get_remove_other (m : Memory) {a b : Int} (h : b ≠ a) : (m.remove a).get b = m.get b := by
  induction m with
  | nil => rfl
  | cons c m ih =>
    by_cases hc : c.1 = a
    · have hb : c.1 ≠ b := fun e => h (e ▸ hc)
      simpa [Memory.remove, hc, Memory.get, hb, Ne.symm h] using ih
    · simp only [Memory.remove, hc, ne_eq, not_false_eq_true, decide_true, List.filter_cons_of_pos, Memory.get] at *
      rw [ih]

theorem Memory.get_insert_other (m : Memory) {a b : Int} (v : Tryte) (h : b ≠ a) :
    (m.insert a v).get b = m.get b := by
  induction m with
  | nil => simp [Memory.insert, Memory.get, Ne.symm h]
  | cons c m ih =>
    by_cases hc : a < c.1
    · simp [Memory.insert, hc, Memory.get, Ne.symm h]
    · simp [Memory.insert, hc, Memory.get, ih]

theorem Memory.get_insert_same (m : Memory) (a : Int) (v : Tryte) (h : ∀ c ∈ m, c.1 ≠ a) :
    (m.insert a v).get a = v := by
  induction m with
  | nil => simp [Memory.insert, Memory.get]
  | cons c m ih =>
    have hc : c.1 ≠ a := h c (by simp)
    by_cases hl : a < c.1
    · simp [Memory.insert, hl, Memory.get]
    · simpa [Memory.insert, hl, Memory.get, hc] using ih fun d hd => h d (by simp [hd])

theorem Memory.remove_ne (m : Memory) (a : Int) : ∀ c ∈ m.remove a, c.1 ≠ a := by
  intro c hc
  simpa using (List.mem_filter.mp hc).2

/-- A read after a write to the same address gives the tryte written. -/
@[simp] theorem Memory.get_set_same (m : Memory) (a : Int) (v : Tryte) : (m.set a v).get a = v := by
  unfold Memory.set
  split
  · next h => rw [Memory.get_remove_same, h]
  · exact Memory.get_insert_same _ _ _ (Memory.remove_ne m a)

/-- A write leaves every other address alone. -/
theorem Memory.get_set_other (m : Memory) {a b : Int} (v : Tryte) (h : b ≠ a) : (m.set a v).get b = m.get b := by
  unfold Memory.set
  split
  · exact Memory.get_remove_other m h
  · rw [Memory.get_insert_other _ _ h, Memory.get_remove_other m h]

/-! ## The canonical form -/

theorem Memory.mem_insert (m : Memory) (a : Int) (v : Tryte) (c : Int × Tryte) (h : c ∈ m.insert a v) :
    c = (a, v) ∨ c ∈ m := by
  induction m with
  | nil => simpa [Memory.insert] using h
  | cons d m ih =>
    by_cases hd : a < d.1
    · simpa [Memory.insert, hd] using h
    · simp only [Memory.insert, hd, if_false, List.mem_cons] at h ⊢
      rcases h with h | h
      · exact .inr (.inl h)
      · exact (ih h).imp_right .inr

/-- The cells after a write are the cell written and cells from before. -/
theorem Memory.mem_set (m : Memory) (a : Int) (v : Tryte) (c : Int × Tryte) (h : c ∈ m.set a v) :
    c = (a, v) ∨ c ∈ m := by
  unfold Memory.set at h
  split at h
  · exact .inr (List.mem_filter.mp h).1
  · exact (Memory.mem_insert _ _ _ _ h).imp_right fun h => (List.mem_filter.mp h).1

theorem Memory.wf_remove {m : Memory} (h : m.wf) (a : Int) : Memory.wf (m.remove a) :=
  ⟨h.1.filter _, fun c hc => h.2 c (List.mem_filter.mp hc).1⟩

theorem Memory.wf_insert {m : Memory} (h : m.wf) {a : Int} {v : Tryte} (hv : v ≠ unlistedTryte)
    (ha : ∀ c ∈ m, c.1 ≠ a) : Memory.wf (m.insert a v) := by
  refine ⟨?_, fun c hc => ?_⟩
  · obtain ⟨hp, -⟩ := h
    induction m with
    | nil => simp [Memory.insert]
    | cons d m ih =>
      rw [List.pairwise_cons] at hp
      have hd : d.1 ≠ a := ha d (by simp)
      by_cases hl : a < d.1
      · simp only [Memory.insert, hl, if_true, List.pairwise_cons, List.mem_cons, forall_eq_or_imp]
        exact ⟨⟨trivial, fun c hc => hl.trans (hp.1 c hc)⟩, hp.1, hp.2⟩
      · simp only [Memory.insert, hl, if_false, List.pairwise_cons]
        refine ⟨fun c hc => ?_, ih (fun c hc => ha c (by simp [hc])) hp.2⟩
        rcases Memory.mem_insert _ _ _ _ hc with rfl | hc
        · simp only; omega
        · exact hp.1 c hc
  · rcases Memory.mem_insert _ _ _ _ hc with rfl | hc
    · exact hv
    · exact h.2 c hc

/-- A write keeps the canonical form. -/
theorem Memory.wf_set {m : Memory} (h : m.wf) (a : Int) (v : Tryte) : Memory.wf (m.set a v) := by
  unfold Memory.set
  split
  · exact Memory.wf_remove h a
  · next hv => exact Memory.wf_insert (Memory.wf_remove h a) hv (Memory.remove_ne m a)

/-- Loading trytes keeps the canonical form. -/
theorem Memory.wf_load {m : Memory} (h : m.wf) (a : Int) (ts : List Tryte) : Memory.wf (m.load a ts) := by
  induction ts generalizing m a with
  | nil => exact h
  | cons t ts ih => exact ih (Memory.wf_set h a t) (a + 1)

/-- A cell of a canonical memory is what its address reads as. -/
theorem Memory.get_of_mem {m : Memory} (h : m.wf) {c : Int × Tryte} (hc : c ∈ m) : m.get c.1 = c.2 := by
  obtain ⟨hp, -⟩ := h
  induction m with
  | nil => cases hc
  | cons d m ih =>
    rw [List.pairwise_cons] at hp
    rcases List.mem_cons.mp hc with rfl | hc
    · simp [Memory.get]
    · have : d.1 ≠ c.1 := (hp.1 c hc).ne
      simpa [Memory.get, this] using ih hc hp.2

/-- The store's contents at reset are canonical. -/
theorem reset_mem_wf : State.reset.mem.wf := by decide

/-! ## The port -/

/-- What a read through the port answers. -/
theorem State.memRead_cases (s : State) (a : Int) :
    (s.params.accepts a = true ∧ s.memRead a = some (s.mem.get a)) ∨
      (s.params.accepts a = false ∧ s.memRead a = none) := by
  unfold State.memRead
  cases s.params.accepts a <;> simp

/-- What a write through the port answers. -/
theorem State.memWrite_cases (s : State) (a : Int) (v : Tryte) :
    (s.params.accepts a = true ∧ s.memWrite a v = some (s.setMem (s.mem.set a v))) ∨
      (s.params.accepts a = false ∧ s.memWrite a v = none) := by
  unfold State.memWrite
  cases s.params.accepts a <;> simp

end Sys2Proof.Machine
end

