-- ==== Sys2Proof/Laws/Operands.lean ====
section
/-! SUPPORT. Everything each operand form can do: it hands on the operands, or it raises its fault on the state it was
given. -/

namespace Sys2Proof.Machine

@[simp] theorem State.underflowE_eq (s : State) (op : Operation) :
    s.underflowE op = s.raise (.stackUnderflow .evaluation op) := rfl

@[simp] theorem State.underflowC_eq (s : State) (op : Operation) :
    s.underflowC op = s.raise (.stackUnderflow .call op) := rfl

theorem State.takeOne_cases (s : State) (op : Operation) (k : Tryte → List Tryte → State) :
    (∃ a S, s.estack = a :: S ∧ s.takeOne op k = k a S) ∨
      (s.estack.length < 1 ∧ s.takeOne op k = s.raise (.stackUnderflow .evaluation op)) := by
  unfold State.takeOne
  rcases h : s.estack with _ | ⟨a, S⟩
  · exact .inr ⟨by simp, rfl⟩
  · exact .inl ⟨a, S, rfl, rfl⟩

theorem State.takeTwo_cases (s : State) (op : Operation) (k : Tryte → Tryte → List Tryte → State) :
    (∃ a b S, s.estack = b :: a :: S ∧ s.takeTwo op k = k a b S) ∨
      (s.estack.length < 2 ∧ s.takeTwo op k = s.raise (.stackUnderflow .evaluation op)) := by
  unfold State.takeTwo
  rcases h : s.estack with _ | ⟨b, _ | ⟨a, S⟩⟩
  · exact .inr ⟨by simp, rfl⟩
  · exact .inr ⟨by simp, rfl⟩
  · exact .inl ⟨a, b, S, rfl, rfl⟩

theorem State.takeThree_cases (s : State) (op : Operation) (k : Tryte → Tryte → Tryte → List Tryte → State) :
    (∃ a b c S, s.estack = c :: b :: a :: S ∧ s.takeThree op k = k a b c S) ∨
      (s.estack.length < 3 ∧ s.takeThree op k = s.raise (.stackUnderflow .evaluation op)) := by
  unfold State.takeThree
  rcases h : s.estack with _ | ⟨c, _ | ⟨b, _ | ⟨a, S⟩⟩⟩
  · exact .inr ⟨by simp, rfl⟩
  · exact .inr ⟨by simp, rfl⟩
  · exact .inr ⟨by simp, rfl⟩
  · exact .inl ⟨a, b, c, S, rfl, rfl⟩

theorem State.takeWord_cases (s : State) (op : Operation) (k : Word → List Tryte → State) :
    (∃ H L S, s.estack = L :: H :: S ∧ s.takeWord op k = k (joinWord H L) S) ∨
      (s.estack.length < 2 ∧ s.takeWord op k = s.raise (.stackUnderflow .evaluation op)) :=
  s.takeTwo_cases op _

theorem State.takeWordAndOne_cases (s : State) (op : Operation) (k : Word → Tryte → List Tryte → State) :
    (∃ v H L S, s.estack = L :: H :: v :: S ∧ s.takeWordAndOne op k = k (joinWord H L) v S) ∨
      (s.estack.length < 3 ∧ s.takeWordAndOne op k = s.raise (.stackUnderflow .evaluation op)) :=
  s.takeThree_cases op _

theorem State.takeReturn_cases (s : State) (op : Operation) (k : Int → List Int → State) :
    (∃ p C, s.cstack = p :: C ∧ s.takeReturn op k = k p C) ∨
      (s.cstack = [] ∧ s.takeReturn op k = s.raise (.stackUnderflow .call op)) := by
  unfold State.takeReturn
  rcases h : s.cstack with _ | ⟨p, C⟩
  · exact .inr ⟨rfl, rfl⟩
  · exact .inl ⟨p, C, rfl, rfl⟩

theorem State.fromStore_cases (s : State) (a : Int) (k : Tryte → State) :
    (s.params.accepts a = true ∧ s.fromStore a k = k (s.mem.get a)) ∨
      (s.params.accepts a = false ∧ s.fromStore a k = s.raise (.addressError a)) := by
  unfold State.fromStore
  rcases s.memRead_cases a with ⟨h, e⟩ | ⟨h, e⟩ <;> simp [h, e]

theorem State.intoStore_cases (s : State) (a : Int) (v : Tryte) (k : State → State) :
    (s.params.accepts a = true ∧ s.intoStore a v k = k (s.setMem (s.mem.set a v))) ∨
      (s.params.accepts a = false ∧ s.intoStore a v k = s.raise (.addressError a)) := by
  unfold State.intoStore
  rcases s.memWrite_cases a v with ⟨h, e⟩ | ⟨h, e⟩ <;> simp [h, e]

/-- A read through the port, as a choice on the address. -/
theorem State.fromStore_eq (s : State) (a : Int) (k : Tryte → State) :
    s.fromStore a k = if s.params.accepts a = true then k (s.mem.get a) else s.raise (.addressError a) := by
  rcases s.fromStore_cases a k with ⟨h, e⟩ | ⟨h, e⟩ <;> simp [h, e]

/-- A write through the port, as a choice on the address. -/
theorem State.intoStore_eq (s : State) (a : Int) (v : Tryte) (k : State → State) :
    s.intoStore a v k =
      if s.params.accepts a = true then k (s.setMem (s.mem.set a v)) else s.raise (.addressError a) := by
  rcases s.intoStore_cases a v k with ⟨h, e⟩ | ⟨h, e⟩ <;> simp [h, e]

/-- A branch: the next state of a taken one, of one not taken, or the underflow. -/
theorem State.branchIf_cases (s : State) (op : Operation) (holds : Tryte → Bool) :
    (∃ cond off S, s.estack = off :: cond :: S ∧
        s.branchIf op holds =
          if holds cond then (s.setEstack S).setPc (s.pc + off.val) else s.setEstack S) ∨
      (s.estack.length < 2 ∧ s.branchIf op holds = s.raise (.stackUnderflow .evaluation op)) :=
  s.takeTwo_cases op _

end Sys2Proof.Machine
end

