-- ==== Sys2Proof/Laws/Loop.lean ====
section
/-! SUPPORT. What the loop can do with the outcomes of its dispatches (`40_execution_loop.md` R120 to R126). -/

namespace Sys2Proof.Machine

theorem State.retire_of_faulted {s : State} (h : s.st = .faulted) : s.retire = s := by
  simp [State.retire, h]

theorem State.retire_of_not_faulted {s : State} (h : s.st ≠ .faulted) : s.retire = s.tick := by
  unfold State.retire
  cases e : s.st <;> simp_all

@[simp] theorem State.retire_st (s : State) : s.retire.st = s.st := by
  unfold State.retire
  cases e : s.st <;> simp [e]

/-- Counting an operation changes nothing but the counter. -/
theorem State.retire_eq (s : State) : ∃ n, s.retire = { s with cy := n } := by
  unfold State.retire
  split
  · exact ⟨s.cy, rfl⟩
  · exact ⟨s.cy + 1, rfl⟩
  · exact ⟨s.cy + 1, rfl⟩

/-- A dispatch with its count answers what the operation answers, counted. -/
theorem dispatchOne_next {i : Instr} {s t : State} (h : exec i s = .next t) : dispatchOne i s = .next t.retire := by
  simp [dispatchOne, h]

/-- Everything a dispatch with its count can come from. -/
theorem dispatchOne_inv {i : Instr} {s u : State} (h : dispatchOne i s = .next u) :
    ∃ t, exec i s = .next t ∧ u = t.retire := by
  unfold dispatchOne at h
  cases e : exec i s with
  | next t =>
    rw [e] at h
    injection h with h
    exact ⟨t, rfl, h.symm⟩
  | fault r => rw [e] at h; cases h
  | refused r => rw [e] at h; cases h

/-- Everything the dispatch of two operations can come from: the first ended the step, or both ran. -/
theorem dispatchPair_inv {p : Pair} {s u : State} (h : dispatchPair p s = .next u) :
    ∃ t, exec p.first s = .next t ∧
      ((t.st ≠ .running ∧ u = t.retire) ∨
        (t.st = .running ∧ ∃ w, exec p.second t.retire = .next w ∧ u = w.retire)) := by
  unfold dispatchPair at h
  cases e : dispatchOne p.first s with
  | fault r => rw [e] at h; cases h
  | refused r => rw [e] at h; cases h
  | next v =>
    obtain ⟨t, ht, rfl⟩ := dispatchOne_inv e
    refine ⟨t, ht, ?_⟩
    rw [e] at h
    cases hs : t.st with
    | running =>
      simp only [State.retire_st, hs] at h
      obtain ⟨w, hw, rfl⟩ := dispatchOne_inv h
      exact .inr ⟨rfl, w, hw, rfl⟩
    | halted =>
      simp only [State.retire_st, hs] at h
      injection h with h
      exact .inl ⟨by simp, h.symm⟩
    | faulted =>
      simp only [State.retire_st, hs] at h
      injection h with h
      exact .inl ⟨by simp, h.symm⟩

/-- Everything a step that answers a next state can be: a decode fault, or the dispatch of the decoded pair. -/
theorem step_inv {s u : State} (h : step s = .next u) :
    s.st = .running ∧
      ((∃ e, s.fetch = .error e ∧ u = s.raise (faultOfDecode e)) ∨
        (∃ d, s.fetch = .ok d ∧ dispatchPair d.ops (s.setPc d.next) = .next u)) := by
  unfold step stepCore at h
  cases hs : s.st with
  | halted => rw [hs] at h; cases h
  | faulted => rw [hs] at h; cases h
  | running =>
    rw [hs] at h
    refine ⟨rfl, ?_⟩
    simp only [runStep] at h
    cases hf : s.fetch with
    | error e =>
      rw [hf] at h
      injection h with h
      exact .inl ⟨e, rfl, h.symm⟩
    | ok d =>
      rw [hf] at h
      exact .inr ⟨d, rfl, h⟩

end Sys2Proof.Machine
end

