-- ==== Sys2Proof/Laws/Meanings.lean ====
section
/-! SUPPORT. Each meaning with its operand form taken apart (files 41 to 46): the state it answers as one `match` or `if` on
the stacks and the address, so that a proof splits it without unfolding an operation. -/

namespace Sys2Proof.Machine

theorem exec_drop (s : State) : exec .drop s = .next (match s.estack with
    | _ :: S => s.setEstack S
    | _ => s.raise (.stackUnderflow .evaluation .drop)) := rfl

theorem exec_dup (s : State) : exec .dup s = .next (match s.estack with
    | a :: S => s.setEstack (a :: a :: S)
    | _ => s.raise (.stackUnderflow .evaluation .dup)) := rfl

theorem exec_negate (s : State) : exec .negate s = .next (match s.estack with
    | a :: S => s.setEstack (tryteNeg a :: S)
    | _ => s.raise (.stackUnderflow .evaluation .negate)) := rfl

theorem exec_swap (s : State) : exec .swap s = .next (match s.estack with
    | b :: a :: S => s.setEstack (a :: b :: S)
    | _ => s.raise (.stackUnderflow .evaluation .swap)) := rfl

theorem exec_add (s : State) : exec .add s = .next (match s.estack with
    | b :: a :: S => s.setEstack (tryteAdd a b :: S)
    | _ => s.raise (.stackUnderflow .evaluation .add)) := rfl

theorem exec_rotate (s : State) : exec .rotate s = .next (match s.estack with
    | c :: b :: a :: S => s.setEstack (c :: a :: b :: S)
    | _ => s.raise (.stackUnderflow .evaluation .rotate)) := rfl

theorem exec_load (s : State) : exec .load s = .next (match s.estack with
    | L :: H :: S =>
      if s.params.accepts (joinWord H L).val = true then s.setEstack (s.mem.get (joinWord H L).val :: S)
      else s.raise (.addressError (joinWord H L).val)
    | _ => s.raise (.stackUnderflow .evaluation .load)) := by
  rcases h : s.estack with _ | ⟨L, _ | ⟨H, S⟩⟩ <;>
    simp only [exec, execLoad, State.takeWord, State.takeTwo, h, State.fromStore_eq, State.underflowE_eq]

theorem exec_store (s : State) : exec .store s = .next (match s.estack with
    | L :: H :: v :: S =>
      if s.params.accepts (joinWord H L).val = true then
        (s.setMem (s.mem.set (joinWord H L).val v)).setEstack S
      else s.raise (.addressError (joinWord H L).val)
    | _ => s.raise (.stackUnderflow .evaluation .store)) := by
  rcases h : s.estack with _ | ⟨L, _ | ⟨H, _ | ⟨v, S⟩⟩⟩ <;>
    simp only [exec, execStore, State.takeWordAndOne, State.takeThree, h, State.intoStore_eq, State.underflowE_eq]

theorem exec_ret (s : State) : exec .ret s = .next (match s.cstack with
    | p :: C => (s.setCstack C).setPc p
    | _ => s.raise (.stackUnderflow .call .ret)) := rfl

theorem exec_jump (s : State) : exec .jump s = .next (match s.estack with
    | L :: H :: S => (s.setEstack S).setPc (joinWord H L).val
    | _ => s.raise (.stackUnderflow .evaluation .jump)) := rfl

theorem exec_call (s : State) : exec .call s = .next (match s.estack with
    | L :: H :: S => ((s.setEstack S).setCstack (s.pc :: s.cstack)).setPc (joinWord H L).val
    | _ => s.raise (.stackUnderflow .evaluation .call)) := rfl

theorem exec_brn (s : State) : exec .brn s = .next (match s.estack with
    | off :: cond :: S => if isNegative cond then (s.setEstack S).setPc (s.pc + off.val) else s.setEstack S
    | _ => s.raise (.stackUnderflow .evaluation .brn)) := rfl

theorem exec_brz (s : State) : exec .brz s = .next (match s.estack with
    | off :: cond :: S => if isZero cond then (s.setEstack S).setPc (s.pc + off.val) else s.setEstack S
    | _ => s.raise (.stackUnderflow .evaluation .brz)) := rfl

theorem exec_brp (s : State) : exec .brp s = .next (match s.estack with
    | off :: cond :: S => if isPositive cond then (s.setEstack S).setPc (s.pc + off.val) else s.setEstack S
    | _ => s.raise (.stackUnderflow .evaluation .brp)) := rfl

end Sys2Proof.Machine
end

