-- ==== Sys2Proof/Laws/PerInstr.lean ====
section
/-! SUPPORT. For each operation: what the encoder writes into a slot of an instruction, the decoder reads back as that
operation (`30_encoding.md` R84, R85, R92 to R97). -/

namespace Sys2Proof.Laws

/-- The slots of an operation: under admissible parameters, the value the encoder gives it in the high slot decodes there to
it, and its low-slot encoding, read where its operand trytes follow, decodes to it. -/
def SlotCodes.Statement (i : Instr) : Prop :=
  ∀ P : Params, P.Admissible →
    (∀ h, codeOf (highTable P) i = some h → opOf (highTable P) h = some i) ∧
    (∀ read p l ops, encodeLow P i = some (l, ops) → (∀ k : Nat, k < ops.length → read (p + 1 + k) = ops[k]?) →
      decodeLow P read p l = .ok (i, p + 1 + ops.length))

/-- Under admissible parameters no value stands twice in the high-slot table. -/
theorem highTable_values_nodup {P : Params} (h : P.Admissible) : ((highTable P).map Prod.fst).Nodup := by
  obtain ⟨-, -, hh, -, hn, -⟩ := h
  rw [highTable, List.map_append, List.nodup_append]
  refine ⟨by decide, by simpa [reservedRows, Function.comp_def] using hn, ?_⟩
  rintro a ha b hb rfl
  obtain ⟨e, he, rfl⟩ : ∃ e ∈ P.reservedHi, e.1 = a := by simpa [reservedRows, Function.comp_def] using hb
  apply hh e he
  rw [← simpleTable_values]
  obtain ⟨r, hr, hre⟩ := List.mem_map.mp ha
  exact List.mem_map.mpr ⟨r, hr, by rw [hre]⟩

/-- Under admissible parameters no value stands twice in the low-slot table, the two operand-taking values included. -/
theorem lowTable_values_nodup {P : Params} (h : P.Admissible) :
    ((lowTable P).map Prod.fst ++ [litxCode, wordCode]).Nodup := by
  obtain ⟨-, -, -, hl, -, -, hn, -⟩ := h
  have hres : ∀ a ∈ (reservedRows P.reservedLo).map Prod.fst, a.val ∈ unassignedCodes := by
    intro a ha
    obtain ⟨e, he, rfl⟩ : ∃ e ∈ P.reservedLo, e.1 = a := by simpa [reservedRows, Function.comp_def] using ha
    exact hl e he
  have hfix : ∀ a ∈ (ext0Table ++ simpleTable).map Prod.fst ++ [litxCode, wordCode], a.val ∉ unassignedCodes := by decide
  have hperm : ((lowTable P).map Prod.fst ++ [litxCode, wordCode]).Perm
      (((ext0Table ++ simpleTable).map Prod.fst ++ [litxCode, wordCode]) ++ (reservedRows P.reservedLo).map Prod.fst) := by
    rw [lowTable, List.map_append, List.append_assoc, List.append_assoc]
    exact List.Perm.append_left _ List.perm_append_comm
  rw [hperm.nodup_iff, List.nodup_append]
  refine ⟨fixed_low_values_nodup, by simpa [reservedRows, Function.comp_def] using hn, ?_⟩
  rintro a ha b hb rfl
  exact hfix a ha (hres a hb)

/-- What holds of every operation without operand trytes holds by the tables alone. -/
theorem SlotCodes.of_table {i : Instr} (hx : ∀ v, i ≠ .litx v) (hw : ∀ w, i ≠ .word w) : SlotCodes.Statement i := by
  intro P hP
  refine ⟨fun h hh => opOf_of_mem (highTable_values_nodup hP) (mem_of_codeOf hh), fun read p l ops he _ => ?_⟩
  have hc : codeOf (lowTable P) i = some l ∧ ops = [] := by
    cases i
    case litx v => exact absurd rfl (hx v)
    case word w => exact absurd rfl (hw w)
    all_goals
      simp only [encodeLow] at he
      split at he
      · next hc =>
        injection he with he
        injection he with h1 h2
        exact ⟨h1 ▸ hc, h2.symm⟩
      · cases he
  obtain ⟨hc, rfl⟩ := hc
  have hn := lowTable_values_nodup hP
  rw [List.nodup_append] at hn
  have hmem := mem_of_codeOf hc
  have hl : l ∈ (lowTable P).map Prod.fst := List.mem_map_of_mem (f := Prod.fst) hmem
  have h1 : l ≠ litxCode := fun e => hn.2.2 l hl litxCode (by simp) e
  have h2 : l ≠ wordCode := fun e => hn.2.2 l hl wordCode (by simp) e
  simp [decodeLow, h1, h2, opOf_of_mem hn.1 hmem]

/-- A word is the join of its two trytes (R7). -/
theorem joinWord_whi_wlo (w : Word) : joinWord (whi w) (wlo w) = w := by
  ext
  simp only [joinWord_val, whi_val, wlo_val]
  omega

theorem SlotCodes.lit (imm3 : Trybble) : SlotCodes.Statement (.lit imm3) :=
  SlotCodes.of_table (by simp) (by simp)

theorem SlotCodes.store : SlotCodes.Statement .store := SlotCodes.of_table (by simp) (by simp)

theorem SlotCodes.load : SlotCodes.Statement .load := SlotCodes.of_table (by simp) (by simp)

theorem SlotCodes.negate : SlotCodes.Statement .negate := SlotCodes.of_table (by simp) (by simp)

theorem SlotCodes.nop : SlotCodes.Statement .nop := SlotCodes.of_table (by simp) (by simp)

theorem SlotCodes.add : SlotCodes.Statement .add := SlotCodes.of_table (by simp) (by simp)

theorem SlotCodes.rotate : SlotCodes.Statement .rotate := SlotCodes.of_table (by simp) (by simp)

theorem SlotCodes.swap : SlotCodes.Statement .swap := SlotCodes.of_table (by simp) (by simp)

theorem SlotCodes.dup : SlotCodes.Statement .dup := SlotCodes.of_table (by simp) (by simp)

theorem SlotCodes.drop : SlotCodes.Statement .drop := SlotCodes.of_table (by simp) (by simp)

theorem SlotCodes.halt : SlotCodes.Statement .halt := SlotCodes.of_table (by simp) (by simp)

theorem SlotCodes.litx (imm6 : Tryte) : SlotCodes.Statement (.litx imm6) := by
  intro P hP
  refine ⟨fun h hh => opOf_of_mem (highTable_values_nodup hP) (mem_of_codeOf hh), fun read p l ops he hr => ?_⟩
  simp only [encodeLow, Option.some.injEq, Prod.mk.injEq] at he
  obtain ⟨rfl, rfl⟩ := he
  have h0 : read (p + 1) = some imm6 := by simpa using hr 0 (by simp)
  simp [decodeLow, readOr, h0]
  omega

theorem SlotCodes.word (imm12 : Word) : SlotCodes.Statement (.word imm12) := by
  intro P hP
  refine ⟨fun h hh => opOf_of_mem (highTable_values_nodup hP) (mem_of_codeOf hh), fun read p l ops he hr => ?_⟩
  simp only [encodeLow, Option.some.injEq, Prod.mk.injEq] at he
  obtain ⟨rfl, rfl⟩ := he
  have h0 : read (p + 1) = some (whi imm12) := by simpa using hr 0 (by simp)
  have h1 : read (p + 2) = some (wlo imm12) := by
    have := hr 1 (by simp)
    rwa [show p + 1 + ((1 : Nat) : Int) = p + 2 by omega] at this
  have hne : wordCode ≠ litxCode := by decide
  simp [decodeLow, readOr, h0, h1, hne, joinWord_whi_wlo]
  omega

theorem SlotCodes.ret : SlotCodes.Statement .ret := SlotCodes.of_table (by simp) (by simp)

theorem SlotCodes.jump : SlotCodes.Statement .jump := SlotCodes.of_table (by simp) (by simp)

theorem SlotCodes.call : SlotCodes.Statement .call := SlotCodes.of_table (by simp) (by simp)

theorem SlotCodes.brn : SlotCodes.Statement .brn := SlotCodes.of_table (by simp) (by simp)

theorem SlotCodes.brz : SlotCodes.Statement .brz := SlotCodes.of_table (by simp) (by simp)

theorem SlotCodes.brp : SlotCodes.Statement .brp := SlotCodes.of_table (by simp) (by simp)

theorem SlotCodes.inc : SlotCodes.Statement .inc := SlotCodes.of_table (by simp) (by simp)

theorem SlotCodes.max : SlotCodes.Statement .max := SlotCodes.of_table (by simp) (by simp)

theorem SlotCodes.shl : SlotCodes.Statement .shl := SlotCodes.of_table (by simp) (by simp)

theorem SlotCodes.shr : SlotCodes.Statement .shr := SlotCodes.of_table (by simp) (by simp)

theorem SlotCodes.signed : SlotCodes.Statement .signed := SlotCodes.of_table (by simp) (by simp)

theorem SlotCodes.unsigned : SlotCodes.Statement .unsigned := SlotCodes.of_table (by simp) (by simp)

end Sys2Proof.Laws
end

