-- ==== Sys2Proof/Tests/Slice0.lean ====
section
/-! SUPPORT. Tests: encodings written out trit by trit from `30_encoding.md` R84 and R85, vectors of `95_test_vectors.md`, the
smoke test of `Sys2Proof/WellFormed.lean`, and for each statement with hypotheses a witness that meets them. -/

namespace Sys2Proof.Tests

open Sys2Proof.Machine

/-! ## Helpers -/

/-- A tryte from its six trits, most significant first (R21). -/
def tr (a b c d e f : Int)
    (h : -364 ≤ 243 * a + 81 * b + 27 * c + 9 * d + 3 * e + f ∧ 243 * a + 81 * b + 27 * c + 9 * d + 3 * e + f ≤ 364 := by
      decide) : Tryte := ⟨_, h⟩

/-- Parameters that place every reserved operation in both slots (R92). -/
def reservedParams : Params :=
  { Params.std with
    reservedHi := [(tb 5, .inc), (tb 7, .max), (tb (-2), .shl), (tb (-3), .shr), (tb (-13), .signed), (tb 13, .unsigned)]
    reservedLo := [(tb 5, .inc), (tb 7, .max), (tb (-2), .shl), (tb (-3), .shr), (tb (-4), .signed), (tb (-9), .unsigned)] }

/-- A running core; the evaluation stack bottom to top, as the spec writes it (R8). -/
def mk (pc : Int) (E : List Tryte) (C : List Int := []) (m : Memory := []) (P : Params := Params.std) : State :=
  { State.construct P pc m with estack := E.reverse, cstack := C.reverse }

/-- The state a step or a dispatch answers. -/
def after : Result → Option State
  | .next t => some t
  | .fault _ => none
  | .refused _ => none

/-- The evaluation stack an operation leaves, bottom to top, with the status. -/
def runs (i : Instr) (s : State) : Option (List Tryte × RunStatus) :=
  (after (exec i s)).map fun t => (t.estack.reverse, t.st)

/-- What a step leaves: pc, evaluation stack bottom to top, cy, status. -/
def steps (s : State) : Option (Int × List Tryte × Nat × RunStatus) :=
  (after (step s)).map fun t => (t.pc, t.estack.reverse, t.cy, t.st)

/-- The fault a step records. -/
def faults (s : State) : Option FaultRecord := (after (step s)).bind State.fault

/-- The decoder at address 40 on trytes that stand there. -/
def decodes (ts : List Tryte) (P : Params := Params.std) : Option Decoded :=
  match decodeAt P (readList 40 ts) 40 with
  | .ok d => some d
  | .error _ => none

/-- Why the decoder at address 40 fails. -/
def decodeFails (ts : List Tryte) (P : Params := Params.std) : Option DecodeError :=
  match decodeAt P (readList 40 ts) 40 with
  | .ok _ => none
  | .error e => some e

/-! ## WellFormed: each check refuses an ill-formed term -/

theorem test_wf_accepts : Pair.wellFormed Params.std ⟨.store, .litx (ty 364)⟩ = true := by decide
theorem test_wf_inline_needs_placeholder : Pair.wellFormed Params.std ⟨.lit (tb 5), .add⟩ = false := by decide
theorem test_wf_inline_not_low : Pair.wellFormed Params.std ⟨.nop, .lit (tb 5)⟩ = false := by decide
theorem test_wf_low_only_not_high : Pair.wellFormed Params.std ⟨.halt, .nop⟩ = false := by decide
theorem test_wf_reserved_without_code : Pair.wellFormed Params.std ⟨.drop, .inc⟩ = false := by decide
theorem test_wf_reserved_without_high_code : Pair.wellFormed Params.std ⟨.inc, .nop⟩ = false := by decide
theorem test_admissible_std : Params.std.Admissible := by decide
theorem test_admissible_refuses_simple_lit_hi : ¬ Params.Admissible { Params.std with litHi := tb 4 } := by decide
theorem test_admissible_refuses_wide_range :
    ¬ Params.Admissible { Params.std with addrValid := [⟨-29524, 29525⟩] } := by decide
theorem test_admissible_refuses_assigned_reserved :
    ¬ Params.Admissible { Params.std with reservedLo := [(tb 8, .inc)] } := by decide

/-! ## Splitting and joining: the table T of `95_test_vectors.md` -/

theorem test_split_14 : (hi3 (ty 14), lo3 (ty 14)) = (tb 1, tb (-13)) := by decide
theorem test_split_neg_319 : (hi3 (ty (-319)), lo3 (ty (-319))) = (tb (-12), tb 5) := by decide
theorem test_split_word_neg_1000 : (whi (wd (-1000)), wlo (wd (-1000))) = (ty (-1), ty (-271)) := by decide
theorem test_wrap6 : [wrap6 365, wrap6 728, wrap6 (-365), wrap6 (-728)] = [ty (-364), ty (-1), ty 364, ty 1] := by decide

/-! ## Decoding, one encoding of each operation (R84, R85; DV vectors) -/

/-- R83: "That is 24 variants"; LIT 5 and LITX 5 are one of them. -/
theorem test_variants : (([.lit (tb 5), .litx (ty 5), .word (wd 5), .nop, .drop, .dup, .swap, .rotate, .add, .negate, .load,
    .store, .ret, .jump, .call, .brn, .brz, .brp, .halt, .inc, .max, .shl, .shr, .signed, .unsigned] : List Instr).map
    Instr.operation).dedup.length = 24 := by decide

theorem test_decode_lit : decodes [tr (-1) (-1) 0 1 (-1) (-1)] = some ⟨⟨.lit (tb 5), .nop⟩, 41⟩ := by decide
theorem test_decode_lit_data_not_halt : decodes [ty (-337)] = some ⟨⟨.lit (tb (-13)), .nop⟩, 41⟩ := by decide
theorem test_decode_store_load : decodes [tr (-1) 0 (-1) (-1) 0 1] = some ⟨⟨.store, .load⟩, 41⟩ := by decide
theorem test_decode_load_store : decodes [tr (-1) 0 1 (-1) 0 (-1)] = some ⟨⟨.load, .store⟩, 41⟩ := by decide
theorem test_decode_negate_nop : decodes [tr 0 0 (-1) 0 0 0] = some ⟨⟨.negate, .nop⟩, 41⟩ := by decide
theorem test_decode_nop_negate : decodes [tr 0 0 0 0 0 (-1)] = some ⟨⟨.nop, .negate⟩, 41⟩ := by decide
theorem test_decode_add_rotate : decodes [tr 0 0 1 0 1 (-1)] = some ⟨⟨.add, .rotate⟩, 41⟩ := by decide
theorem test_decode_rotate_add : decodes [tr 0 1 (-1) 0 0 1] = some ⟨⟨.rotate, .add⟩, 41⟩ := by decide
theorem test_decode_swap_dup : decodes [tr 0 1 0 0 1 1] = some ⟨⟨.swap, .dup⟩, 41⟩ := by decide
theorem test_decode_dup_swap : decodes [tr 0 1 1 0 1 0] = some ⟨⟨.dup, .swap⟩, 41⟩ := by decide
theorem test_decode_drop_drop : decodes [tr 1 (-1) 0 1 (-1) 0] = some ⟨⟨.drop, .drop⟩, 41⟩ := by decide
theorem test_decode_halt : decodes [tr 0 0 0 (-1) (-1) (-1)] = some ⟨⟨.nop, .halt⟩, 41⟩ := by decide
theorem test_decode_litx : decodes [tr 0 0 0 (-1) (-1) 0, ty 364] = some ⟨⟨.nop, .litx (ty 364)⟩, 42⟩ := by decide
theorem test_decode_word : decodes [tr 0 0 0 (-1) (-1) 1, ty 1, ty (-1)] = some ⟨⟨.nop, .word (wd 728)⟩, 43⟩ := by decide
theorem test_decode_ret : decodes [tr 0 0 0 1 0 (-1)] = some ⟨⟨.nop, .ret⟩, 41⟩ := by decide
theorem test_decode_jump : decodes [tr 0 0 0 1 0 0] = some ⟨⟨.nop, .jump⟩, 41⟩ := by decide
theorem test_decode_call : decodes [tr 0 0 0 1 0 1] = some ⟨⟨.nop, .call⟩, 41⟩ := by decide
theorem test_decode_brn : decodes [tr 0 0 0 1 1 (-1)] = some ⟨⟨.nop, .brn⟩, 41⟩ := by decide
theorem test_decode_brz : decodes [tr 0 0 0 1 1 0] = some ⟨⟨.nop, .brz⟩, 41⟩ := by decide
theorem test_decode_brp : decodes [tr 0 0 (-1) 1 1 1] = some ⟨⟨.negate, .brp⟩, 41⟩ := by decide
theorem test_decode_reserved : [ty 5, ty 7, ty (-2), ty (-3), ty (-4), ty (-9)].map (fun t => decodes [t] reservedParams) =
    [Instr.inc, .max, .shl, .shr, .signed, .unsigned].map (fun i => some ⟨⟨.nop, i⟩, 41⟩) := by decide
theorem test_decode_reserved_high :
    [ty 135, ty 189, ty (-54), ty (-81), ty (-351), ty 351].map (fun t => decodes [t] reservedParams) =
    [Instr.inc, .max, .shl, .shr, .signed, .unsigned].map (fun i => some ⟨⟨i, .nop⟩, 41⟩) := by decide
theorem test_decode_high_slot_illegal : [ty 216, ty (-351), ty 231, ty 364, ty 135].map (decodeFails [·]) =
    [tb 8, tb (-13), tb 9, tb 13, tb 5].map (fun v => some (.illegal 40 v)) := by decide
theorem test_decode_low_slot_illegal : decodeFails [ty 5] = some (.illegal 40 (tb 5)) := by decide
theorem test_decode_operand_rejected : decodeFails [ty (-11), ty 0] = some (.address 42) := by decide
theorem test_encode_word : encode Params.std ⟨.add, .word (wd 100)⟩ = some [ty 16, ty 0, ty 100] := by decide
theorem test_decodeTableWord : decodeTableWord 16 (16 + 65536 * 0) = some .add := by decide
theorem test_decodeTableWord_low : decodeTableWord 8 13 = some .brp := by decide

/-! ## Operations (V vectors) -/

theorem test_lit : runs (.lit (tb (-13))) (mk 40 [ty 2]) = some ([ty 2, ty (-13)], .running) := by decide
theorem test_litx : runs (.litx (ty 364)) (mk 40 []) = some ([ty 364], .running) := by decide
theorem test_word : runs (.word (wd (-1000))) (mk 40 []) = some ([ty (-1), ty (-271)], .running) := by decide
theorem test_nop : runs .nop (mk 40 [ty 7]) = some ([ty 7], .running) := by decide
theorem test_drop : runs .drop (mk 40 [ty 4, ty 9]) = some ([ty 4], .running) := by decide
theorem test_dup : runs .dup (mk 40 [ty 4, ty 9]) = some ([ty 4, ty 9, ty 9], .running) := by decide
theorem test_swap : runs .swap (mk 40 [ty 1, ty 4, ty 9]) = some ([ty 1, ty 9, ty 4], .running) := by decide
theorem test_rotate : runs .rotate (mk 40 [ty 0, ty 1, ty 2, ty 3]) = some ([ty 0, ty 2, ty 1, ty 3], .running) := by decide
theorem test_add : runs .add (mk 40 [ty 9, ty (-20), ty 20]) = some ([ty 9, ty 0], .running) := by decide
theorem test_add_wraps : runs .add (mk 40 [ty 364, ty 364]) = some ([ty (-1)], .running) := by decide
theorem test_negate : runs .negate (mk 40 [ty (-364)]) = some ([ty 364], .running) := by decide
theorem test_load : runs .load (mk 40 [ty 3, ty 1, ty (-364)] [] [(365, ty (-7))]) = some ([ty 3, ty (-7)], .running) := by
  decide
theorem test_store : (after (exec .store (mk 40 [ty 1, ty (-5), ty 0, ty 0]))).map (fun t => (t.estack, t.mem)) =
    some ([ty 1], [(0, ty (-5))]) := by decide
theorem test_ret : (after (exec .ret (mk 12 [] [5, 31]))).map (fun t => (t.pc, t.cstack)) = some (31, [5]) := by decide
theorem test_jump : (after (exec .jump (mk 5 [ty (-1), ty 0]))).map (fun t => (t.pc, t.estack)) = some (-729, []) := by decide
theorem test_call : (after (exec .call (mk 31 [ty 0, ty 30] [5]))).map (fun t => (t.pc, t.cstack.reverse)) =
    some (30, [5, 31]) := by decide
theorem test_brn : [ty (-2), ty 0, ty 2].map (fun c => (after (exec .brn (mk 21 [c, ty 5]))).map State.pc) =
    [some 26, some 21, some 21] := by decide
theorem test_brz : [ty 0, ty 1, ty (-1)].map (fun c => (after (exec .brz (mk 21 [c, ty (-4)]))).map State.pc) =
    [some 17, some 21, some 21] := by decide
theorem test_brp : [ty 2, ty 0, ty (-2)].map (fun c => (after (exec .brp (mk 5 [c, ty (-4)]))).map State.pc) =
    [some 1, some 5, some 5] := by decide
theorem test_halt : runs .halt (mk 40 [ty 7]) = some ([ty 7], .halted) := by decide
theorem test_reserved : [Instr.inc, .max, .shl, .shr, .signed, .unsigned].map (fun i => (after (exec i (mk 40 []))).bind State.fault) =
    [ReservedOp.inc, .max, .shl, .shr, .signed, .unsigned].map (fun r => some (.unimplementedOpcode r)) := by decide

/-! ## Steps: the halt example of R200, V-STLD, program P4 step 3, and the F vectors -/

theorem test_step_halt : steps { mk 8 [ty 0, ty 100] [] [(8, ty (-229)), (100, ty 8)] with cy := 8 } =
    some (9, [ty 8], 10, .halted) := by decide
theorem test_step_store_load : steps (mk 40 [ty 0, ty 50, ty 9, ty 0, ty 50] [] [(40, ty (-278))]) =
    some (41, [ty 9], 2, .running) := by decide
theorem test_step_store_into_operand : steps (mk 5 [ty 99, ty 0, ty 6] [] [(5, ty (-282)), (6, ty 7)]) =
    some (7, [ty 7], 2, .running) := by decide
theorem test_step_inline : steps (mk 40 [] [] [(40, ty (-319))]) = some (41, [ty 5], 2, .running) := by decide
theorem test_step_F1 : faults (mk 40 [] [] [(40, ty 162)]) = some (.stackUnderflow .evaluation .drop) := by decide
theorem test_step_F5 : faults (mk 40 [ty 364, ty 364] [] [(40, ty (-270))]) = some (.stackUnderflow .evaluation .store) := by
  decide
theorem test_step_F6 : (steps { mk 40 [ty 1] [] [(40, ty 170)] with cy := 2 }, faults (mk 40 [ty 1] [] [(40, ty 170)])) =
    (some (41, [], 3, .faulted), some (.stackUnderflow .call .ret)) := by decide
theorem test_step_F11 : (steps (mk 40 [ty 7, ty 364, ty 364] [] [(40, ty (-270))]),
      faults (mk 40 [ty 7, ty 364, ty 364] [] [(40, ty (-270))])) =
    (some (41, [ty 7, ty 364, ty 364], 0, .faulted), some (.addressError 265720)) := by decide
theorem test_step_F13 : (steps (mk 40 [] [] [(40, ty 167)]), faults (mk 40 [] [] [(40, ty 167)])) =
    (some (40, [], 0, .faulted), some (.illegalInstruction 40 (tb 5))) := by decide
theorem test_step_F14 : (steps (mk 40 [ty 1] [] [(40, ty 167)] reservedParams),
      faults (mk 40 [ty 1] [] [(40, ty 167)] reservedParams)) =
    (some (41, [], 1, .faulted), some (.unimplementedOpcode .inc)) := by decide
theorem test_step_F15 : faults (mk 265720 []) = some (.addressError 265720) := by decide
theorem test_step_halted_refused : (after (step { mk 40 [] with st := .halted })).isNone = true := by decide
theorem test_withFetchWord : steps (State.reset.withFetchWord 8 4) = some (1, [], 1, .faulted) := by decide

/-! ## Witnesses: for each statement with hypotheses, states and operands that meet them -/

/-- A core at 40 about to run `STORE | LOAD` on the address 50 (V-STLD). -/
def storeLoad : State := mk 40 [ty 0, ty 50, ty 9, ty 0, ty 50] [5] [(40, ty (-278))]

/-- A core at 40 about to run one instruction tryte. -/
def running (t : Tryte) (E : List Tryte := []) (C : List Int := []) : State := mk 40 E C [(40, t)]

theorem witness_ConstructionMeetsTheInvariant :
    Params.std.Admissible ∧ Memory.wf [(-29524, ty 8), (29524, ty (-364))] ∧
      ∀ c ∈ ([(-29524, ty 8), (29524, ty (-364))] : Memory), Params.std.accepts c.1 = true := by decide

theorem witness_StepKeepsTheInvariant : ∃ t, storeLoad.Inv ∧ step storeLoad = .next t := ⟨_, by decide, rfl⟩

theorem witness_StepKeepsTheInvariant_faulting :
    ∃ t, (running (ty 162)).Inv ∧ step (running (ty 162)) = .next t ∧ t.st = .faulted := ⟨_, by decide, rfl, by decide⟩

theorem witness_StepKeepsPcAndReturnAddressesBounded :
    ∃ s t, Params.Admissible (State.params s) ∧ State.PcBounded s ∧ step s = .next t ∧ t.pc = 265720 :=
  ⟨running (ty 9) [ty 364, ty 364] [265720, -265720], _, by decide, by decide, rfl, by decide⟩

theorem witness_StepKeepsTheParameters : ∃ t, step storeLoad = .next t := ⟨_, rfl⟩

theorem witness_StepEnabledExactlyWhenRunning :
    storeLoad.st = .running ∧ State.st { storeLoad with st := .halted } = .halted ∧
      State.st { storeLoad with st := .faulted } = .faulted := by decide

theorem witness_StepCountsItsCompletedOperations :
    (∃ t, step (running (ty (-13))) = .next t ∧ t.st = .halted) ∧
    (∃ t, step (running (ty 0)) = .next t ∧ t.st = .running) ∧
    (∃ t, step (running (ty 162)) = .next t ∧ t.st = .faulted ∧ t.cy = 0) ∧
    ∃ t, step (running (ty 6)) = .next t ∧ t.st = .faulted ∧ t.cy = 1 :=
  ⟨⟨_, rfl, by decide⟩, ⟨_, rfl, by decide⟩, ⟨_, rfl, by decide⟩, ⟨_, rfl, by decide⟩⟩

/-- Each way a step can fault, with the cause the statement names: in the decode, in the first operation, in the second. -/
theorem witness_StepCountsItsCompletedOperations_causes :
    (∃ t, step (running (ty 216)) = .next t ∧ t.st = .faulted ∧ t.cy = 0 ∧
      decodeAt Params.std (running (ty 216)).memRead 40 = .error (.illegal 40 (tb 8))) ∧
    (∃ u, exec .drop { running (ty 162) with pc := 41 } = .next u ∧ u.st = .faulted) ∧
    ∃ w, exec .drop { running (ty 6) with pc := 41, cy := 1 } = .next w ∧ w.st = .faulted :=
  ⟨⟨_, rfl, by decide, by decide, rfl⟩, ⟨_, rfl, by decide⟩, ⟨_, rfl, by decide⟩⟩

theorem witness_DispatchAlwaysAnswers :
    Instr.operation (.lit (tb (-13))) = Instr.operation (.litx (ty (-13))) ∧ Instr.lit (tb (-13)) ≠ .litx (ty (-13)) := by
  decide

theorem witness_CounterAndRecordAreUnobservable :
    (∃ t, step storeLoad = .next t ∧ t.st ≠ .faulted) ∧ ∃ t, step (running (ty 162)) = .next t ∧ t.st = .faulted :=
  ⟨⟨_, rfl, by decide⟩, ⟨_, rfl, by decide⟩⟩

theorem witness_StepRunsTheDecodedPair_second : ∃ d t u, storeLoad.st = .running ∧
    decodeAt storeLoad.params storeLoad.memRead storeLoad.pc = .ok d ∧
    exec d.ops.first { storeLoad with pc := d.next } = .next t ∧ t.st = .running ∧
    exec d.ops.second { t with cy := t.cy + 1 } = .next u :=
  ⟨⟨⟨.store, .load⟩, 41⟩, _, _, rfl, rfl, rfl, by decide, rfl⟩

theorem witness_StepRunsTheDecodedPair_first : ∃ d t, (running (ty 162)).st = .running ∧
    decodeAt (running (ty 162)).params (running (ty 162)).memRead (running (ty 162)).pc = .ok d ∧
    exec d.ops.first { running (ty 162) with pc := d.next } = .next t ∧ t.st = .faulted :=
  ⟨⟨⟨.drop, .nop⟩, 41⟩, _, rfl, rfl, rfl, by decide⟩

theorem witness_DecodeFaultChangesNothingElse :
    (∃ s : State, s.st = .running ∧ decodeAt s.params s.memRead s.pc = .error (.address 29525)) ∧
    ∃ s : State, s.st = .running ∧ decodeAt s.params s.memRead s.pc = .error (.illegal 40 (tb 8)) :=
  ⟨⟨mk 29525 [], rfl, rfl⟩, ⟨running (ty 216), rfl, rfl⟩⟩

theorem witness_DispatchFaultKeepsEarlierEffects : ∃ d t u, (running (ty 170) [ty 1]).st = .running ∧
    decodeAt (running (ty 170) [ty 1]).params (running (ty 170) [ty 1]).memRead (running (ty 170) [ty 1]).pc = .ok d ∧
    exec d.ops.first { running (ty 170) [ty 1] with pc := d.next } = .next t ∧ t.st = .running ∧
    exec d.ops.second { t with cy := t.cy + 1 } = .next u ∧ u.st = .faulted :=
  ⟨⟨⟨.drop, .ret⟩, 41⟩, _, _, rfl, rfl, rfl, by decide, rfl, by decide⟩

theorem witness_DecodeInvertsEncode : reservedParams.Admissible ∧
    [(⟨.lit (tb (-13)), .nop⟩ : Pair), ⟨.signed, .unsigned⟩, ⟨.drop, .litx (ty (-364))⟩, ⟨.inc, .word (wd 265720)⟩].all
      (fun q => q.wellFormed reservedParams) = true ∧
    (encode reservedParams ⟨.inc, .word (wd 265720)⟩ = some [ty 124, ty 364, ty 364] ∧
      ∀ k : Nat, k < 3 → readList 40 [ty 124, ty 364, ty 364] (40 + k) = [ty 124, ty 364, ty 364][k]?) := by
  refine ⟨by decide, by decide, by decide, fun k hk => ?_⟩
  have h : k = 0 ∨ k = 1 ∨ k = 2 := by omega
  rcases h with rfl | rfl | rfl <;> decide

theorem witness_EncodeInvertsDecode : reservedParams.Admissible ∧
    decodeAt reservedParams (readList 40 [ty 124, ty 364, ty 364]) 40 = .ok ⟨⟨.inc, .word (wd 265720)⟩, 43⟩ :=
  ⟨by decide, rfl⟩

theorem witness_DecodedPairsAreWellFormed :
    decodeAt Params.std (readList 40 [ty (-319)]) 40 = .ok ⟨⟨.lit (tb 5), .nop⟩, 41⟩ ∧
    decodeAt Params.std (readList 40 [ty 170]) 40 = .ok ⟨⟨.drop, .ret⟩, 41⟩ := ⟨rfl, rfl⟩

theorem witness_DecodeReadsOnlyTheInstruction :
    (∀ a ∈ [40, 41, 42], readList 40 [ty (-11), ty 0, ty 100] a = readList 40 [ty (-11), ty 0, ty 100, ty 7] a) ∧
    readList 40 [ty (-11), ty 0, ty 100] 43 ≠ readList 40 [ty (-11), ty 0, ty 100, ty 7] 43 ∧
    decodeAt Params.std (readList 40 [ty (-11), ty 0, ty 100]) 40 = .ok ⟨⟨.nop, .word (wd 100)⟩, 43⟩ ∧
    ∀ a : Int, 40 ≤ a → a < 43 → readList 40 [ty (-11), ty 0, ty 100, ty 7] a = readList 40 [ty (-11), ty 0, ty 100] a := by
  refine ⟨by decide, by decide, rfl, fun a h1 h2 => ?_⟩
  have h : a = 40 ∨ a = 41 ∨ a = 42 := by omega
  rcases h with rfl | rfl | rfl <;> decide

theorem witness_InstructionTryteDecidesTheLength :
    [[ty (-336)], [ty (-12), ty 0], [ty (-11), ty 0, ty 0], [ty 0]].map (fun ts => (decodes ts).map Decoded.next) =
      [some 41, some 42, some 43, some 41] := by decide

theorem witness_InlineLiteralTakesTheWholeTryte :
    (running (ty (-337))).st = .running ∧ (running (ty (-337))).memRead 40 = some (joinTryte (tb (-12)) (tb (-13))) ∧
    (running (ty (-311))).memRead 40 = some (joinTryte (tb (-12)) (tb 13)) := by decide

theorem witness_HighTrybbleIsJudgedFirst :
    (readList 40 [ty 162] 40 = some (ty 162) ∧ hi3 (ty 162) ≠ Params.std.litHi ∧
      opOf simpleTable (hi3 (ty 162)) = some .drop ∧ (decodes [ty 162]).isSome = true) ∧
    (hi3 (ty 351) ≠ reservedParams.litHi ∧ reservedParams.Admissible ∧ (hi3 (ty 351), .unsigned) ∈ reservedParams.reservedHi ∧
      (decodes [ty 351] reservedParams).isSome = true) ∧
    (hi3 (ty 231) ≠ Params.std.litHi ∧ (hi3 (ty 231)).val ∉ simpleCodes ∧ Params.std.reservedHi = []) := by decide

theorem witness_LowSlotReadsItsOperandTrytes :
    (hi3 (ty (-12)) ≠ Params.std.litHi ∧ opOf (highTable Params.std) (hi3 (ty (-12))) = some .nop ∧
      lo3 (ty (-12)) = tb (-12) ∧ readList 40 [ty (-12), ty 364] 41 = some (ty 364) ∧ readList 40 [ty (-12)] 41 = none) ∧
    (opOf (highTable Params.std) (hi3 (ty (-11))) = some .nop ∧ lo3 (ty (-11)) = tb (-11) ∧
      readList 40 [ty (-11), ty 1, ty (-1)] 41 = some (ty 1) ∧ readList 40 [ty (-11), ty 1, ty (-1)] 42 = some (ty (-1)) ∧
      readList 40 [ty (-11)] 41 = none ∧ readList 40 [ty (-11), ty 1] 42 = none) := by decide

theorem witness_StoreIsARandomAccessMemory : ∃ t, storeLoad.memWrite 29524 (ty 9) = some t ∧ (40 : Int) ≠ 29524 :=
  ⟨_, rfl, by decide⟩

theorem witness_StoreIntoItsOwnOperandTryte : ∃ s : State, s.params.Admissible ∧ s.st = .running ∧
    s.memRead s.pc = some (joinTryte (tb (-10)) (tb (-12))) ∧ s.memRead (s.pc + 1) = some (ty 7) ∧
    s.estack = [ty 6, ty 0, ty 99] ∧ 729 * (ty 0).val + (ty 6).val = s.pc + 1 :=
  ⟨mk 5 [ty 99, ty 0, ty 6] [] [(5, ty (-282)), (6, ty 7)], by decide, rfl, by decide, by decide, rfl, by decide⟩

theorem witness_LoadSeesTheStoreBesideIt : storeLoad.params.Admissible ∧ storeLoad.st = .running ∧
    storeLoad.memRead storeLoad.pc = some (joinTryte (tb (-10)) (tb (-8))) ∧
    storeLoad.estack = [ty 50, ty 0, ty 9, ty 50, ty 0] ∧ storeLoad.params.accepts 50 = true := by decide

theorem witness_OnlyStoreWritesTheStore : ∃ t, step storeLoad = .next t ∧ t.mem ≠ storeLoad.mem := ⟨_, rfl, by decide⟩

theorem witness_LiteralRoundTrip :
    (∃ s : State, s.params.Admissible ∧ s.st = .running ∧ s.memRead s.pc = some (joinTryte s.params.litHi (tb 13))) ∧
    (∃ s : State, s.params.Admissible ∧ s.st = .running ∧ s.memRead s.pc = some (joinTryte (tb 0) (tb (-12))) ∧
      s.memRead (s.pc + 1) = some (ty (-364))) ∧
    ∃ s : State, s.params.Admissible ∧ s.st = .running ∧ s.memRead s.pc = some (joinTryte (tb 0) (tb (-11))) ∧
      s.memRead (s.pc + 1) = some (ty 364) ∧ s.memRead (s.pc + 2) = some (ty (-364)) :=
  ⟨⟨running (ty (-311)), by decide, rfl, by decide⟩,
   ⟨mk 40 [] [] [(40, ty (-12)), (41, ty (-364))], by decide, rfl, by decide, by decide⟩,
   ⟨mk 40 [] [] [(40, ty (-11)), (41, ty 364), (42, ty (-364))], by decide, rfl, by decide, by decide, by decide⟩⟩

theorem witness_NopDoesNothing : (mk 40 [ty 7]).params.Admissible ∧ (mk 40 [ty 7]).st = .running ∧
    (mk 40 [ty 7]).memRead 40 = some (ty 0) := by decide

/-- The stacks that the statements of DROP, DUP, SWAP, ROTATE, ADD, NEGATE, LOAD, STORE, JUMP, CALL and the branches suppose:
empty, one short, and just deep enough. -/
theorem witness_stack_depths :
    (mk 40 []).estack = [] ∧ (mk 40 [ty 1]).estack = [ty 1] ∧ (mk 40 [ty 1, ty 2]).estack = [ty 2, ty 1] ∧
    (mk 40 [ty 1, ty 2, ty 3]).estack = [ty 3, ty 2, ty 1] ∧ (mk 40 [ty 1]).estack.length < 2 ∧
    (mk 40 [ty 1, ty 2]).estack.length < 3 := by decide

theorem witness_StackDiscipline : ∃ t, (∀ i ∈ [Instr.dup, .rotate, .drop, .swap, .drop, .nop],
      i = .dup ∨ i = .swap ∨ i = .drop ∨ i = .rotate ∨ i = .nop) ∧ (mk 40 [ty 1, ty 2, ty 3]).st = .running ∧
    runOps [.dup, .rotate, .drop, .swap, .drop, .nop] (mk 40 [ty 1, ty 2, ty 3]) = .next t ∧ t.st = .running :=
  ⟨_, by decide, rfl, rfl, by decide⟩

theorem witness_AddIsExactInRange :
    (ty 200).val + (ty 164).val ≤ 364 ∧ -364 ≤ (ty (-364)).val + (ty 0).val ∧
    (mk 40 [ty 200, ty 164]).estack = [ty 164, ty 200] := by decide

theorem witness_AddWrapsOutOfRange : 364 < (ty 364).val + (ty 1).val ∧ (ty (-364)).val + (ty (-1)).val < -364 ∧
    (mk 40 [ty 364, ty 1]).estack = [ty 1, ty 364] := by decide

theorem witness_LoadReadsTheAddressedTryte :
    ((mk 40 [ty 40, ty 364]).estack = [ty 364, ty 40] ∧ (mk 40 []).memRead (729 * (ty 40).val + (ty 364).val) = some (ty 0)) ∧
    ((mk 40 [ty 41, ty (-364)]).estack = [ty (-364), ty 41] ∧
      (mk 40 []).params.accepts (729 * (ty 41).val + (ty (-364)).val) = false) := by decide

theorem witness_StoreWritesTheAddressedTryte :
    ((mk 40 [ty 9, ty 40, ty 364]).estack = [ty 364, ty 40, ty 9] ∧
      (mk 40 []).params.accepts (729 * (ty 40).val + (ty 364).val) = true) ∧
    ((mk 40 [ty 9, ty 41, ty (-364)]).estack = [ty (-364), ty 41, ty 9] ∧
      (mk 40 []).params.accepts (729 * (ty 41).val + (ty (-364)).val) = false) := by decide

theorem witness_ReturnPopsTheCallStack : (mk 12 [] [5, 31]).cstack = [31, 5] ∧ (mk 12 []).cstack = [] := by decide

theorem witness_ReturnRestoresTheCallersPc : ∃ t, exec .call (mk 5 [ty 7, ty 0, ty 10]) = .next t ∧
    2 ≤ (mk 5 [ty 7, ty 0, ty 10]).estack.length ∧ State.cstack { t with pc := 12, estack := [] } = t.cstack :=
  ⟨_, rfl, by decide, rfl⟩

theorem witness_BranchOffsetsCountFromTheNextInstruction : ∃ s : State, s.params.Admissible ∧ s.st = .running ∧
    s.memRead s.pc = some (joinTryte (tb 0) (tb 12)) ∧ s.estack = [ty (-364), ty 0] :=
  ⟨running (ty 12) [ty 0, ty (-364)], by decide, rfl, by decide, rfl⟩

theorem witness_TransfersAreOneTryteLong :
    (decodeAt Params.std (readList 40 [ty 10]) 40 = .ok ⟨⟨.nop, .call⟩, 41⟩ ∧ Instr.isTransfer .call = true) ∧
    decodeAt Params.std (readList 40 [ty 14]) 40 = .ok ⟨⟨.add, .halt⟩, 41⟩ := ⟨⟨rfl, rfl⟩, rfl⟩

theorem witness_InvalidPcFaultsAtTheFetch : (mk 29525 []).st = .running ∧ (mk 29525 []).params.accepts 29525 = false := by
  decide

theorem witness_OnlyCallAndReturnTouchTheCallStack :
    (∃ t, step (running (ty 10) [ty 0, ty 10]) = .next t ∧ t.cstack ≠ (running (ty 10) [ty 0, ty 10]).cstack) ∧
    ∃ t, step (running (ty 8) [] [5]) = .next t ∧ t.cstack ≠ (running (ty 8) [] [5]).cstack :=
  ⟨⟨_, rfl, by decide⟩, ⟨_, rfl, by decide⟩⟩

theorem witness_HaltEndsTheRun : ∃ d t, (running (ty 14) [ty 1, ty 2]).st = .running ∧
    decodeAt (running (ty 14) [ty 1, ty 2]).params (running (ty 14) [ty 1, ty 2]).memRead (running (ty 14) [ty 1, ty 2]).pc =
      .ok d ∧ d.ops.second = .halt ∧
    exec d.ops.first { running (ty 14) [ty 1, ty 2] with pc := d.next } = .next t ∧ t.st = .running :=
  ⟨⟨⟨.add, .halt⟩, 41⟩, _, rfl, rfl, rfl, rfl, by decide⟩

theorem witness_ReservedValueFaultsAtDispatch : ∃ s : State, s.params.Admissible ∧ s.st = .running ∧
    (tb (-9), ReservedOp.unsigned) ∈ s.params.reservedLo ∧ s.params.litHi ≠ tb 6 ∧
    s.memRead s.pc = some (joinTryte (tb 6) (tb (-9))) ∧ s.estack = [ty 1] :=
  ⟨mk 40 [ty 1] [] [(40, ty 153)] reservedParams, by decide, rfl, by decide, by decide, by decide, rfl⟩

theorem witness_DispatchRaisesOnlyTheTabledFaults :
    (∃ t, exec .rotate (mk 40 [ty 1, ty 2]) = .next t ∧ t.st = .faulted) ∧
    (∃ t, exec .ret (mk 40 [ty 1]) = .next t ∧ t.st = .faulted) ∧
    (∃ t, exec .load (mk 40 [ty 41, ty (-364)]) = .next t ∧ t.st = .faulted) ∧
    (∃ t, exec .max (mk 40 [ty 1]) = .next t ∧ t.st = .faulted) ∧ (mk 40 []).st = .running :=
  ⟨⟨_, rfl, by decide⟩, ⟨_, rfl, by decide⟩, ⟨_, rfl, by decide⟩, ⟨_, rfl, by decide⟩, rfl⟩

theorem witness_UnderflowExactlyWhenTooFew : (mk 40 [ty 1, ty 2]).st = .running ∧
    (mk 40 [ty 1, ty 2]).estack.length < Instr.needs .store ∧ ¬ (mk 40 [ty 1, ty 2]).estack.length < Instr.needs .load := by
  decide

theorem witness_OperationsPopAndPushAsTabled :
    ∃ t, exec .rotate (mk 40 [ty 1, ty 2, ty 3]) = .next t ∧ t.st ≠ .faulted := ⟨_, rfl, by decide⟩

/-- The clauses at their ends: DUP pops nothing, STORE pushes nothing and empties the stack, a fault is outside. -/
theorem witness_OperationsPopAndPushAsTabled_ends :
    (∃ t, exec .dup (mk 40 [ty 1]) = .next t ∧ t.st ≠ .faulted ∧ t.estack.drop 1 = [ty 1]) ∧
    (∃ t, exec .store (mk 40 [ty 1, ty 0, ty 50]) = .next t ∧ t.st ≠ .faulted ∧ t.estack = []) ∧
    ∃ t, exec .store (mk 40 [ty 1, ty 2]) = .next t ∧ t.st = .faulted :=
  ⟨⟨_, rfl, by decide, by decide⟩, ⟨_, rfl, by decide, by decide⟩, ⟨_, rfl, by decide⟩⟩

theorem witness_StackOperationsFrame : ∃ t, Instr.isStackOnly .load = true ∧
    exec .load (mk 40 [ty 0, ty 40] [5] [(40, ty 3)]) = .next t := ⟨_, rfl, rfl⟩

theorem witness_StoreFrame : (∃ t, exec .store storeLoad = .next t ∧ storeLoad.estack = [ty 50, ty 0, ty 9, ty 50, ty 0] ∧
      storeLoad.params.accepts (joinWord (ty 0) (ty 50)).val = true ∧ (51 : Int) ≠ (joinWord (ty 0) (ty 50)).val) ∧
    ∃ t, exec .store (mk 40 [ty 1, ty 2]) = .next t ∧ (mk 40 [ty 1, ty 2]).estack.length < 3 :=
  ⟨⟨_, rfl, by decide, by decide, by decide⟩, ⟨_, rfl, by decide⟩⟩

theorem witness_TransfersFrame : (∃ t, Instr.isTransfer .ret = true ∧ exec .ret (mk 40 [ty 1] [5]) = .next t) ∧
    ∃ t, Instr.isTransfer .jump = true ∧ Instr.jump ≠ .call ∧ Instr.jump ≠ .ret ∧
      exec .jump (mk 40 [ty 1, ty 2] [5]) = .next t := ⟨⟨_, rfl, rfl⟩, ⟨_, rfl, by decide, by decide, rfl⟩⟩

theorem witness_HaltAndReservedFrame : (∃ t, exec .halt (mk 40 [ty 1]) = .next t) ∧
    ∃ t, Instr.shr = ReservedOp.toInstr .shr ∧ exec .shr (mk 40 [ty 1]) = .next t := ⟨⟨_, rfl⟩, ⟨_, rfl, rfl⟩⟩

theorem witness_LowerPartOfTheStackIsUntouched : ∃ t, storeLoad.SafeStep t := ⟨_, rfl, by decide⟩

end Sys2Proof.Tests
end

/-! PROOFS. Construction (O2), splitting and joining (O23), and the untouched lower part of the evaluation stack (O60). -/

/-! ## Construction and the reset state (R5, R40) -/

namespace Sys2Proof.Machine

theorem std_admissible : Params.std.Admissible := by decide

theorem State.construct_inv {P : Params} {m : Memory} (p : Int) (hP : P.Admissible) (hwf : m.wf)
    (hm : ∀ c ∈ m, P.accepts c.1 = true) : (State.construct P p m).Inv :=
  ⟨hP, ⟨hwf, hm⟩, by simp [State.StatusOk, State.construct]⟩

theorem State.reset_inv : State.reset.Inv :=
  State.construct_inv 0 std_admissible reset_mem_wf (fun _ hc => nomatch hc)

theorem State.reset_pcBounded : State.reset.PcBounded := by decide

/-- Settles O2: the image is the store's contents, the status is RUNNING with no record, and the reset state is the
construction from the default parameters and the empty image. -/
theorem constructionMeetsTheInvariant : Obligations.ConstructionMeetsTheInvariant :=
  ⟨fun _ p _ => State.construct_inv p, State.reset_inv, State.reset_pcBounded⟩

end Sys2Proof.Machine

/-! ## Splitting and joining (R7) -/

namespace Sys2Proof

@[simp] theorem lo3_joinTryte (h l : Trybble) : lo3 (joinTryte h l) = l := by
  have hl := l.inRange
  ext
  simp only [lo3_val, joinTryte_val]
  omega

@[simp] theorem hi3_joinTryte (h l : Trybble) : hi3 (joinTryte h l) = h := by
  have hl := l.inRange
  ext
  simp only [hi3_val, joinTryte_val]
  omega

@[simp] theorem joinTryte_hi3_lo3 (t : Tryte) : joinTryte (hi3 t) (lo3 t) = t := by
  ext
  simp only [joinTryte_val, hi3_val, lo3_val]
  omega

@[simp] theorem wlo_joinWord (H L : Tryte) : wlo (joinWord H L) = L := by
  have hL := L.inRange
  ext
  simp only [wlo_val, joinWord_val]
  omega

@[simp] theorem whi_joinWord (H L : Tryte) : whi (joinWord H L) = H := by
  have hL := L.inRange
  ext
  simp only [whi_val, joinWord_val]
  omega

/-- `wrap6` subtracts 729 as often as it goes into `x + 364`. -/
theorem wrap6_val_eq_add_mul (x : Int) : (wrap6 x).val = x + 729 * -((x + 364) / 729) := by
  rw [wrap6_val]
  omega

/-- Settles O23: the low part is the balanced remainder, so the high part divides exactly. -/
theorem splitAndJoinAreInverse : Obligations.SplitAndJoinAreInverse :=
  ⟨fun h l => ⟨joinTryte_val h l, hi3_joinTryte h l, lo3_joinTryte h l⟩,
    joinTryte_hi3_lo3,
    fun H L => ⟨joinWord_val H L, whi_joinWord H L, wlo_joinWord H L⟩,
    Laws.joinWord_whi_wlo,
    fun x => ⟨_, wrap6_val_eq_add_mul x⟩⟩

end Sys2Proof

/-! ## What the loop answers, from what its dispatches answer (R120 to R126) -/

namespace Sys2Proof.Machine

theorem step_of_fetch_ok {s : State} {d : Decoded} (hs : s.st = .running) (hf : s.fetch = .ok d) :
    step s = dispatchPair d.ops (s.setPc d.next) := by
  simp only [step, stepCore, hs, runStep, hf]

theorem dispatchPair_of_first_ends {p : Pair} {s t : State} (h : exec p.first s = .next t) (ht : t.st ≠ .running) :
    dispatchPair p s = .next t.retire := by
  simp only [dispatchPair, dispatchOne_next h, State.retire_st]
  cases hs : t.st with
  | running => exact absurd hs ht
  | halted => rfl
  | faulted => rfl

theorem dispatchPair_of_both {p : Pair} {s t w : State} (h : exec p.first s = .next t) (ht : t.st = .running)
    (hw : exec p.second t.retire = .next w) : dispatchPair p s = .next w.retire := by
  simp only [dispatchPair, dispatchOne_next h, State.retire_st, ht, dispatchOne_next hw]

/-! ## A deeper evaluation stack (R8, R24)

`deepen X` puts `X` under the evaluation stack. Each layer of a step commutes with it as long as nothing faults: the operand
forms, the operations, the dispatch of a pair, the step. -/

/-- The state with `X` under its evaluation stack. -/
def State.deepen (s : State) (X : List Tryte) : State := { s with estack := s.estack ++ X }

section
variable {s : State} {op : Operation} {X : List Tryte}

@[simp] theorem State.deepen_st (s : State) (X : List Tryte) : (s.deepen X).st = s.st := rfl

@[simp] theorem State.deepen_estack (s : State) (X : List Tryte) : (s.deepen X).estack = s.estack ++ X := rfl

/-- The decoder does not look at the stack. -/
theorem State.fetch_deepen (s : State) (X : List Tryte) : (s.deepen X).fetch = s.fetch := rfl

theorem State.retire_deepen (s : State) (X : List Tryte) : (s.deepen X).retire = s.retire.deepen X := by
  simp only [State.retire, State.deepen_st]
  cases s.st <;> rfl

/-! ### The operand forms: the continuation commutes, so the form does -/

theorem State.takeOne_deepen {k k' : Tryte → List Tryte → State}
    (hk : ∀ a S, (k a S).st ≠ .faulted → k' a (S ++ X) = (k a S).deepen X)
    (h : (s.takeOne op k).st ≠ .faulted) : (s.deepen X).takeOne op k' = (s.takeOne op k).deepen X := by
  rcases s.takeOne_cases op k with ⟨a, S, hS, e⟩ | ⟨-, e⟩
  · rw [e] at h ⊢
    simpa [State.takeOne, hS] using hk a S h
  · exact absurd (by rw [e, State.raise_st]) h

theorem State.takeTwo_deepen {k k' : Tryte → Tryte → List Tryte → State}
    (hk : ∀ a b S, (k a b S).st ≠ .faulted → k' a b (S ++ X) = (k a b S).deepen X)
    (h : (s.takeTwo op k).st ≠ .faulted) : (s.deepen X).takeTwo op k' = (s.takeTwo op k).deepen X := by
  rcases s.takeTwo_cases op k with ⟨a, b, S, hS, e⟩ | ⟨-, e⟩
  · rw [e] at h ⊢
    simpa [State.takeTwo, hS] using hk a b S h
  · exact absurd (by rw [e, State.raise_st]) h

theorem State.takeThree_deepen {k k' : Tryte → Tryte → Tryte → List Tryte → State}
    (hk : ∀ a b c S, (k a b c S).st ≠ .faulted → k' a b c (S ++ X) = (k a b c S).deepen X)
    (h : (s.takeThree op k).st ≠ .faulted) : (s.deepen X).takeThree op k' = (s.takeThree op k).deepen X := by
  rcases s.takeThree_cases op k with ⟨a, b, c, S, hS, e⟩ | ⟨-, e⟩
  · rw [e] at h ⊢
    simpa [State.takeThree, hS] using hk a b c S h
  · exact absurd (by rw [e, State.raise_st]) h

theorem State.takeReturn_deepen {k k' : Int → List Int → State}
    (hk : ∀ p C, k' p C = (k p C).deepen X) (h : (s.takeReturn op k).st ≠ .faulted) :
    (s.deepen X).takeReturn op k' = (s.takeReturn op k).deepen X := by
  rcases s.takeReturn_cases op k with ⟨p, C, hC, e⟩ | ⟨-, e⟩
  · rw [e]
    simpa [State.takeReturn, State.deepen, hC] using hk p C
  · exact absurd (by rw [e, State.raise_st]) h

theorem State.fromStore_deepen {a : Int} {k k' : Tryte → State} (hk : ∀ v, k' v = (k v).deepen X)
    (h : (s.fromStore a k).st ≠ .faulted) : (s.deepen X).fromStore a k' = (s.fromStore a k).deepen X := by
  rcases s.fromStore_cases a k with ⟨ha, e⟩ | ⟨-, e⟩
  · rw [e, State.fromStore_eq]
    simpa [State.deepen, ha] using hk (s.mem.get a)
  · exact absurd (by rw [e, State.raise_st]) h

theorem State.intoStore_deepen {a : Int} {v : Tryte} {k k' : State → State}
    (hk : ∀ m, k' ((s.deepen X).setMem m) = (k (s.setMem m)).deepen X)
    (h : (s.intoStore a v k).st ≠ .faulted) : (s.deepen X).intoStore a v k' = (s.intoStore a v k).deepen X := by
  rcases s.intoStore_cases a v k with ⟨ha, e⟩ | ⟨-, e⟩
  · rw [e, State.intoStore_eq]
    simpa [State.deepen, ha] using hk (s.mem.set a v)
  · exact absurd (by rw [e, State.raise_st]) h

theorem State.branchIf_deepen {holds : Tryte → Bool} (h : (s.branchIf op holds).st ≠ .faulted) :
    (s.deepen X).branchIf op holds = (s.branchIf op holds).deepen X :=
  State.takeTwo_deepen (fun cond _ _ _ => by cases holds cond <;> rfl) h

end

/-! ### The operations, the dispatch of a pair, the step -/

/-- An operation that does not fault commutes with `deepen`: by its operand form, or by computation where it takes no
operand. -/
theorem exec_deepen {i : Instr} {s t : State} (X : List Tryte) (h : exec i s = .next t) (ht : t.st ≠ .faulted) :
    exec i (s.deepen X) = .next (t.deepen X) := by
  cases i <;> injection h with h <;> subst h
  case lit | nop | halt | litx | word => rfl
  case inc | max | shl | shr | signed | unsigned => exact absurd rfl ht
  case drop | dup | negate => exact congrArg _ (State.takeOne_deepen (fun _ _ _ => rfl) ht)
  case swap | add | jump | call => exact congrArg _ (State.takeTwo_deepen (fun _ _ _ _ => rfl) ht)
  case rotate => exact congrArg _ (State.takeThree_deepen (fun _ _ _ _ _ => rfl) ht)
  case load => exact congrArg _ (State.takeTwo_deepen (fun _ _ _ => State.fromStore_deepen fun _ => rfl) ht)
  case store => exact congrArg _ (State.takeThree_deepen (fun _ _ _ _ => State.intoStore_deepen fun _ => rfl) ht)
  case ret => exact congrArg _ (State.takeReturn_deepen (fun _ _ => rfl) ht)
  case brn | brz | brp => exact congrArg _ (State.branchIf_deepen ht)

theorem dispatchPair_deepen {p : Pair} {s u : State} (X : List Tryte) (h : dispatchPair p s = .next u)
    (hu : u.st ≠ .faulted) : dispatchPair p (s.deepen X) = .next (u.deepen X) := by
  obtain ⟨t, ht, ⟨hst, rfl⟩ | ⟨hst, w, hw, rfl⟩⟩ := dispatchPair_inv h
  · rw [State.retire_st] at hu
    rw [← State.retire_deepen]
    exact dispatchPair_of_first_ends (exec_deepen X ht hu) hst
  · rw [State.retire_st] at hu
    have hfirst : exec p.first (s.deepen X) = .next (t.deepen X) := exec_deepen X ht (by simp [hst])
    have hsecond : exec p.second (t.deepen X).retire = .next (w.deepen X) := by
      rw [State.retire_deepen]
      exact exec_deepen X hw hu
    rw [← State.retire_deepen]
    exact dispatchPair_of_both hfirst hst hsecond

theorem State.SafeStep.deepen {s t : State} (h : s.SafeStep t) (X : List Tryte) :
    (s.deepen X).SafeStep (t.deepen X) := by
  obtain ⟨hstep, ht⟩ := h
  obtain ⟨hs, ⟨e, -, rfl⟩ | ⟨d, hf, hd⟩⟩ := step_inv hstep
  · exact absurd (State.raise_st _ _) ht
  · refine ⟨?_, ht⟩
    have hs' : (s.deepen X).st = .running := hs
    rw [step_of_fetch_ok hs' ((s.fetch_deepen X).trans hf)]
    exact dispatchPair_deepen X hd ht

/-- Settles O60: the decode does not look at the stack, and each of the two operations commutes with `deepen`. -/
theorem lowerPartOfTheStackIsUntouched : Obligations.LowerPartOfTheStackIsUntouched :=
  fun _ _ X h => h.deepen X

end Sys2Proof.Machine

/-! PROOFS. The state and its steps (`10_state.md`): what an operation can do, said once (`Performs`), and from it the
invariant (O3), the bound on `pc` (O4), the parameters (O5), when a step is taken (O6), its count (O8), what is never read
(O9), who writes the store (O25, O27) and the call stack (O49), the table of R25 (O55), the frames (O56, O58), construction
(O1), literals (O28) and the fetch of an invalid pc (O48). -/

/-! ## What an operation can do (files 41 to 46) -/

namespace Sys2Proof.Machine

/-- What an operation does to the state it is dispatched in: it writes the four fields an operation can write, it halts, or it
raises a fault. -/
inductive Effect where
  | put (pc : Int) (E : List Tryte) (C : List Int) (m : Memory)
  | halt
  | raise (f : FaultRecord)

/-- The state after an effect. -/
def Effect.apply : Effect → State → State
  | .put p E C m, s => { s with pc := p, estack := E, cstack := C, mem := m }
  | .halt, s => s.halt
  | .raise f, s => s.raise f

/-- The effects an operation can have in a state. A raise is allowed to every operation: which faults it can be is not said
here. -/
inductive Performs (s : State) : Instr → Effect → Prop
  | stack {i : Instr} {S : List Tryte} (ins outs : List Tryte) (hi : i.isStackOnly = true) (hE : s.estack = ins ++ S)
      (hins : ins.length = i.pops) (houts : outs.length = i.pushes) :
      Performs s i (.put s.pc (outs ++ S) s.cstack s.mem)
  | store {v H L : Tryte} {S : List Tryte} (hE : s.estack = L :: H :: v :: S)
      (ha : s.params.accepts (joinWord H L).val = true) :
      Performs s .store (.put s.pc S s.cstack (s.mem.set (joinWord H L).val v))
  | ret {p : Int} {C : List Int} (hC : s.cstack = p :: C) : Performs s .ret (.put p s.estack C s.mem)
  | jump {H L : Tryte} {S : List Tryte} (hE : s.estack = L :: H :: S) :
      Performs s .jump (.put (joinWord H L).val S s.cstack s.mem)
  | call {H L : Tryte} {S : List Tryte} (hE : s.estack = L :: H :: S) :
      Performs s .call (.put (joinWord H L).val S (s.pc :: s.cstack) s.mem)
  | branch {i : Instr} {p : Int} {cond off : Tryte} {S : List Tryte} (hi : i = .brn ∨ i = .brz ∨ i = .brp)
      (hE : s.estack = off :: cond :: S) (hp : p = s.pc ∨ p = s.pc + off.val) :
      Performs s i (.put p S s.cstack s.mem)
  | halt : Performs s .halt .halt
  | raise {i : Instr} {f : FaultRecord} : Performs s i (.raise f)

/-! ### Every operation performs one of these effects, whatever `cy` and the fault record hold -/

/-- The state with another counter and another fault record. -/
def State.relabel (s : State) (n : Nat) (f : Option FaultRecord) : State := { s with cy := n, fault := f }

@[simp] theorem State.relabel_estack (s : State) (n : Nat) (f : Option FaultRecord) :
    (s.relabel n f).estack = s.estack := rfl

@[simp] theorem State.relabel_cstack (s : State) (n : Nat) (f : Option FaultRecord) :
    (s.relabel n f).cstack = s.cstack := rfl

/-- `r`, dispatched as `i`, has an effect of `i` in `s`, and the same one whatever `cy` and the record hold. -/
def State.Acts (s : State) (i : Instr) (r : State → State) : Prop :=
  ∃ e, Performs s i e ∧ ∀ n f, r (s.relabel n f) = e.apply (s.relabel n f)

section
variable {s : State} {i : Instr} {op : Operation}

theorem State.Acts.takeOne {k : State → Tryte → List Tryte → State}
    (hk : ∀ a S, s.estack = a :: S → s.Acts i fun u => k u a S) : s.Acts i fun u => u.takeOne op (k u) := by
  simp only [State.Acts, State.takeOne, State.relabel_estack]
  rcases h : s.estack with _ | ⟨a, S⟩
  · exact ⟨_, .raise, fun _ _ => rfl⟩
  · exact hk a S h

theorem State.Acts.takeTwo {k : State → Tryte → Tryte → List Tryte → State}
    (hk : ∀ a b S, s.estack = b :: a :: S → s.Acts i fun u => k u a b S) : s.Acts i fun u => u.takeTwo op (k u) := by
  simp only [State.Acts, State.takeTwo, State.relabel_estack]
  rcases h : s.estack with _ | ⟨b, _ | ⟨a, S⟩⟩
  · exact ⟨_, .raise, fun _ _ => rfl⟩
  · exact ⟨_, .raise, fun _ _ => rfl⟩
  · exact hk a b S h

theorem State.Acts.takeThree {k : State → Tryte → Tryte → Tryte → List Tryte → State}
    (hk : ∀ a b c S, s.estack = c :: b :: a :: S → s.Acts i fun u => k u a b c S) :
    s.Acts i fun u => u.takeThree op (k u) := by
  simp only [State.Acts, State.takeThree, State.relabel_estack]
  rcases h : s.estack with _ | ⟨c, _ | ⟨b, _ | ⟨a, S⟩⟩⟩
  · exact ⟨_, .raise, fun _ _ => rfl⟩
  · exact ⟨_, .raise, fun _ _ => rfl⟩
  · exact ⟨_, .raise, fun _ _ => rfl⟩
  · exact hk a b c S h

theorem State.Acts.takeReturn {k : State → Int → List Int → State}
    (hk : ∀ p C, s.cstack = p :: C → s.Acts i fun u => k u p C) : s.Acts i fun u => u.takeReturn op (k u) := by
  simp only [State.Acts, State.takeReturn, State.relabel_cstack]
  rcases h : s.cstack with _ | ⟨p, C⟩
  · exact ⟨_, .raise, fun _ _ => rfl⟩
  · exact hk p C h

theorem State.Acts.fromStore {a : Int} {k : State → Tryte → State} (hk : s.Acts i fun u => k u (s.mem.get a)) :
    s.Acts i fun u => u.fromStore a (k u) := by
  obtain ⟨e, he, hr⟩ := hk
  by_cases ha : s.params.accepts a = true
  · exact ⟨e, he, fun n f => (State.fromStore_eq _ _ _).trans ((if_pos ha).trans (hr n f))⟩
  · exact ⟨_, .raise, fun n f => (State.fromStore_eq _ _ _).trans (if_neg ha)⟩

theorem State.Acts.intoStore {a : Int} {v : Tryte} {k : State → State → State}
    (hk : s.params.accepts a = true → s.Acts i fun u => k u (u.setMem (s.mem.set a v))) :
    s.Acts i fun u => u.intoStore a v (k u) := by
  by_cases ha : s.params.accepts a = true
  · obtain ⟨e, he, hr⟩ := hk ha
    exact ⟨e, he, fun n f => (State.intoStore_eq _ _ _ _).trans ((if_pos ha).trans (hr n f))⟩
  · exact ⟨_, .raise, fun n f => (State.intoStore_eq _ _ _ _).trans (if_neg ha)⟩

theorem State.Acts.branchIf {holds : Tryte → Bool} (hi : i = .brn ∨ i = .brz ∨ i = .brp) :
    s.Acts i fun u => u.branchIf op holds :=
  .takeTwo fun cond off S hE => by
    cases holds cond
    · exact ⟨_, .branch hi hE (.inl rfl), fun _ _ => rfl⟩
    · exact ⟨_, .branch hi hE (.inr rfl), fun _ _ => rfl⟩

end

/-- Every operation acts, by its operand form. -/
theorem exec_acts (i : Instr) (s : State) : ∃ r, (∀ u, exec i u = .next (r u)) ∧ s.Acts i r := by
  cases i <;> refine ⟨_, fun _ => rfl, ?_⟩
  case lit v => exact ⟨_, .stack [] [widen v] rfl rfl rfl rfl, fun _ _ => rfl⟩
  case litx v => exact ⟨_, .stack [] [v] rfl rfl rfl rfl, fun _ _ => rfl⟩
  case word w => exact ⟨_, .stack [] [wlo w, whi w] rfl rfl rfl rfl, fun _ _ => rfl⟩
  case nop => exact ⟨_, .stack [] [] rfl rfl rfl rfl, fun _ _ => rfl⟩
  case drop => exact .takeOne fun a _ hE => ⟨_, .stack [a] [] rfl hE rfl rfl, fun _ _ => rfl⟩
  case dup => exact .takeOne fun a _ hE => ⟨_, .stack [] [a] rfl hE rfl rfl, fun _ _ => rfl⟩
  case negate => exact .takeOne fun a _ hE => ⟨_, .stack [a] [tryteNeg a] rfl hE rfl rfl, fun _ _ => rfl⟩
  case swap => exact .takeTwo fun a b _ hE => ⟨_, .stack [b, a] [a, b] rfl hE rfl rfl, fun _ _ => rfl⟩
  case add => exact .takeTwo fun a b _ hE => ⟨_, .stack [b, a] [tryteAdd a b] rfl hE rfl rfl, fun _ _ => rfl⟩
  case rotate => exact .takeThree fun a b c _ hE => ⟨_, .stack [c, b, a] [c, a, b] rfl hE rfl rfl, fun _ _ => rfl⟩
  case load =>
    exact .takeTwo fun H L _ hE =>
      .fromStore ⟨_, .stack [L, H] [s.mem.get (joinWord H L).val] rfl hE rfl rfl, fun _ _ => rfl⟩
  case store => exact .takeThree fun _ _ _ _ hE => .intoStore fun ha => ⟨_, .store hE ha, fun _ _ => rfl⟩
  case ret => exact .takeReturn fun _ _ hC => ⟨_, .ret hC, fun _ _ => rfl⟩
  case jump => exact .takeTwo fun _ _ _ hE => ⟨_, .jump hE, fun _ _ => rfl⟩
  case call => exact .takeTwo fun _ _ _ hE => ⟨_, .call hE, fun _ _ => rfl⟩
  case brn | brz | brp => exact .branchIf (by simp)
  case halt => exact ⟨_, .halt, fun _ _ => rfl⟩
  case inc | max | shl | shr | signed | unsigned => exact ⟨_, .raise, fun _ _ => rfl⟩

/-- The effect of an operation, the same whatever `cy` and the fault record hold. -/
theorem exec_effect (i : Instr) (s : State) :
    ∃ e, Performs s i e ∧ ∀ n f, exec i (s.relabel n f) = .next (e.apply (s.relabel n f)) := by
  obtain ⟨r, hexec, e, he, hr⟩ := exec_acts i s
  exact ⟨e, he, fun n f => (hexec _).trans (congrArg _ (hr n f))⟩

/-- Every operation answers a next state in every state (R127). -/
theorem exec_total (i : Instr) (s : State) : ∃ t, exec i s = .next t := by
  obtain ⟨e, -, he⟩ := exec_effect i s
  exact ⟨_, he s.cy s.fault⟩

/-- Everything a dispatch can come from: an effect of its operation. -/
theorem exec_inv {i : Instr} {s t : State} (h : exec i s = .next t) : ∃ e, Performs s i e ∧ t = e.apply s := by
  obtain ⟨e, hp, he⟩ := exec_effect i s
  have hn : exec i s = .next (e.apply s) := he s.cy s.fault
  rw [h] at hn
  injection hn with hn
  exact ⟨e, hp, hn⟩

/-! ## What an operation leaves unchanged (R25, R28, R30, R56) -/

section
variable {s t : State} {i : Instr} {e : Effect}

@[simp] theorem Effect.apply_put (s : State) (p : Int) (E : List Tryte) (C : List Int) (m : Memory) :
    (Effect.put p E C m).apply s = { s with pc := p, estack := E, cstack := C, mem := m } := rfl

@[simp] theorem Effect.apply_halt (s : State) : Effect.halt.apply s = s.halt := rfl

@[simp] theorem Effect.apply_raise (s : State) (f : FaultRecord) : (Effect.raise f).apply s = s.raise f := rfl

@[simp] theorem Effect.apply_cy (e : Effect) (s : State) : (e.apply s).cy = s.cy := by cases e <;> rfl

@[simp] theorem Effect.apply_params (e : Effect) (s : State) : (e.apply s).params = s.params := by cases e <;> rfl

theorem Instr.ne_call_and_ne_ret (h : i.isTransfer = false) : i ≠ .call ∧ i ≠ .ret := by
  constructor <;> rintro rfl <;> cases h

theorem exec_cy (h : exec i s = .next t) : t.cy = s.cy := by
  obtain ⟨e, -, rfl⟩ := exec_inv h
  exact e.apply_cy s

theorem exec_params (h : exec i s = .next t) : t.params = s.params := by
  obtain ⟨e, -, rfl⟩ := exec_inv h
  exact e.apply_params s

theorem Instr.isTransfer_of_isStackOnly (h : i.isStackOnly = true) : i.isTransfer = false := by
  cases i
  case ret | jump | call | brn | brz | brp => cases h
  all_goals rfl

/-- A dispatch keeps the store's contents, or it is a STORE that writes one cell at an accepted address. -/
theorem exec_mem (h : exec i s = .next t) :
    t.mem = s.mem ∨ ∃ a v, i = .store ∧ s.params.accepts a = true ∧ t.mem = s.mem.set a v := by
  obtain ⟨e, hp, rfl⟩ := exec_inv h
  cases hp with
  | store _ ha => exact .inr ⟨_, _, rfl, ha, rfl⟩
  | stack | ret | jump | call | branch | halt | raise => exact .inl rfl

/-- A dispatch leaves status and record alone, it halts, or it raises a fault and changes nothing else. -/
theorem exec_status (h : exec i s = .next t) :
    (t.st = s.st ∧ t.fault = s.fault) ∨ (i = .halt ∧ t = s.halt) ∨ ∃ f, t = s.raise f := by
  obtain ⟨e, hp, rfl⟩ := exec_inv h
  cases hp with
  | halt => exact .inr (.inl ⟨rfl, rfl⟩)
  | raise => exact .inr (.inr ⟨_, rfl⟩)
  | stack | store | ret | jump | call | branch => exact .inl ⟨rfl, rfl⟩

/-- Only CALL and RETURN change the call stack. -/
theorem exec_cstack (hc : i ≠ .call) (hr : i ≠ .ret) (h : exec i s = .next t) : t.cstack = s.cstack := by
  obtain ⟨e, hp, rfl⟩ := exec_inv h
  cases hp with
  | call => exact absurd rfl hc
  | ret => exact absurd rfl hr
  | stack | store | jump | branch | halt | raise => rfl

/-- An operation that is no control transfer leaves `pc` alone (R28). -/
theorem exec_pc (hi : i.isTransfer = false) (h : exec i s = .next t) : t.pc = s.pc := by
  obtain ⟨e, hp, rfl⟩ := exec_inv h
  cases hp with
  | ret | jump | call => cases hi
  | branch hb => obtain rfl | rfl | rfl := hb <;> cases hi
  | stack | store | halt | raise => rfl

end

/-- Settles O55: an effect that is no raise takes its operands off and puts its results on the same remainder. -/
theorem operationsPopAndPushAsTabled : Obligations.OperationsPopAndPushAsTabled := by
  intro i s t h ht
  obtain ⟨e, hp, rfl⟩ := exec_inv h
  cases hp with
  | stack ins outs _ hE hins houts => simp +arith [hE, ← hins, ← houts]
  | store hE _ => simp [hE, Instr.pops, Instr.pushes]
  | ret | halt => simp [Instr.pops, Instr.pushes]
  | jump hE | call hE => simp [hE, Instr.pops, Instr.pushes]
  | branch hi hE _ => obtain rfl | rfl | rfl := hi <;> simp [hE, Instr.pops, Instr.pushes]
  | raise => exact absurd (State.raise_st _ _) ht

/-- Settles O56: a stack operation is neither STORE nor HALT nor a transfer, so the lemmas above give each clause. -/
theorem stackOperationsFrame : Obligations.StackOperationsFrame := by
  intro i s t hi h
  have hmem : t.mem = s.mem := by
    obtain hm | ⟨_, _, rfl, -⟩ := exec_mem h
    · exact hm
    · cases hi
  have hparams := exec_params h
  refine ⟨exec_pc (Instr.isTransfer_of_isStackOnly hi) h, exec_cstack ?_ ?_ h, exec_cy h, hparams, ?_, ?_, ?_⟩
  · rintro rfl; cases hi
  · rintro rfl; cases hi
  · simp [hmem]
  · simp [State.memRead, hmem, hparams]
  · obtain hs | ⟨rfl, -⟩ | ⟨f, rfl⟩ := exec_status h
    · exact .inl hs
    · cases hi
    · exact .inr ⟨rfl, rfl, rfl⟩

/-- Settles O58: a transfer is neither STORE nor HALT, and RETURN's effect keeps the evaluation stack. -/
theorem transfersFrame : Obligations.TransfersFrame := by
  intro i s t hi h
  refine ⟨exec_cy h, exec_params h, ?_, ?_, fun hc hr => exec_cstack hc hr h, ?_⟩
  · obtain hm | ⟨_, _, rfl, -⟩ := exec_mem h
    · simp [hm]
    · cases hi
  · rintro rfl
    obtain ⟨e, hp, rfl⟩ := exec_inv h
    cases hp with
    | ret | raise => rfl
    | stack _ _ hs | branch hs => simp [Instr.isStackOnly] at hs
  · obtain hs | ⟨rfl, -⟩ | ⟨f, rfl⟩ := exec_status h
    · exact .inl hs
    · cases hi
    · exact .inr ⟨rfl, rfl, rfl, rfl, rfl⟩

/-! ## The loop: every step that answers keeps what its parts keep -/

@[simp] theorem State.retire_pc (s : State) : s.retire.pc = s.pc := by
  obtain ⟨n, h⟩ := s.retire_eq
  rw [h]

@[simp] theorem State.retire_cstack (s : State) : s.retire.cstack = s.cstack := by
  obtain ⟨n, h⟩ := s.retire_eq
  rw [h]

/-- A property of the state that the loop's own updates keep, and every operation of the decoded pair while the core runs, is
kept by a step. -/
theorem step_keeps {I : State → Prop} {s u : State} (h : step s = .next u)
    (hraise : ∀ f, I (s.raise f)) (hpc : ∀ p, I (s.setPc p)) (hcy : ∀ t n, I t → I { t with cy := n })
    (hexec : ∀ d i v t, s.fetch = .ok d → i = d.ops.first ∨ i = d.ops.second → v.st = .running → I v →
      exec i v = .next t → I t) : I u := by
  have hretire : ∀ t : State, I t → I t.retire := fun t ht => by
    obtain ⟨n, hn⟩ := t.retire_eq
    exact hn ▸ hcy t n ht
  obtain ⟨hrun, ⟨e, -, rfl⟩ | ⟨d, hf, hd⟩⟩ := step_inv h
  · exact hraise _
  · obtain ⟨t, ht, hend⟩ := dispatchPair_inv hd
    have hIt : I t := hexec d _ (s.setPc d.next) t hf (.inl rfl) hrun (hpc d.next) ht
    obtain ⟨-, rfl⟩ | ⟨hst, w, hw, rfl⟩ := hend
    · exact hretire t hIt
    · exact hretire w (hexec d _ _ w hf (.inr rfl) (t.retire_st.trans hst) (hretire t hIt) hw)

/-- Settles O5: neither the loop nor an operation writes the parameters. -/
theorem stepKeepsTheParameters : Obligations.StepKeepsTheParameters := fun s _ h =>
  step_keeps (I := fun t => t.params = s.params) h (fun _ => rfl) (fun _ => rfl) (fun _ _ ht => ht)
    fun _ _ _ _ _ _ _ hv ht => (exec_params ht).trans hv

/-! ### The invariant -/

theorem State.StoreOk.set {s : State} (h : s.StoreOk) {a : Int} {v : Tryte} (ha : s.params.accepts a = true) :
    Memory.wf (s.mem.set a v) ∧ ∀ c ∈ s.mem.set a v, s.params.accepts c.1 = true := by
  obtain ⟨hwf, hcells⟩ := h
  refine ⟨Memory.wf_set hwf a v, fun c hc => ?_⟩
  obtain rfl | hc := Memory.mem_set _ _ _ _ hc
  · exact ha
  · exact hcells c hc

theorem exec_keeps_storeOk {i : Instr} {s t : State} (h : exec i s = .next t) (hs : s.StoreOk) : t.StoreOk := by
  unfold State.StoreOk
  rw [exec_params h]
  obtain hm | ⟨a, v, -, ha, hm⟩ := exec_mem h <;> rw [hm]
  · exact hs
  · exact hs.set ha

/-- A halt keeps status and record in agreement only from a core that runs, which holds no record. -/
theorem exec_keeps_statusOk {i : Instr} {s t : State} (h : exec i s = .next t) (hrun : s.st = .running)
    (hs : s.StatusOk) : t.StatusOk := by
  unfold State.StatusOk at hs ⊢
  obtain ⟨hst, hf⟩ | ⟨-, rfl⟩ | ⟨f, rfl⟩ := exec_status h
  · rw [hst, hf]; exact hs
  · simpa [hrun] using hs
  · simp

theorem exec_keeps_inv {i : Instr} {s t : State} (h : exec i s = .next t) (hrun : s.st = .running) (hs : s.Inv) :
    t.Inv := by
  obtain ⟨hP, hstore, hstatus⟩ := hs
  exact ⟨by rw [exec_params h]; exact hP, exec_keeps_storeOk h hstore, exec_keeps_statusOk h hrun hstatus⟩

/-- Settles O3: the loop's own updates touch neither the parameters nor the store, and every operation keeps the invariant
of a running core. -/
theorem stepKeepsTheInvariant : Obligations.StepKeepsTheInvariant := by
  intro s t hs h
  refine step_keeps h (fun f => ?_) (fun _ => hs) (fun _ _ ht => ht) fun _ _ _ _ _ _ hrun hv hx =>
    exec_keeps_inv hx hrun hv
  obtain ⟨hP, hstore, -⟩ := hs
  exact ⟨hP, hstore, by simp [State.StatusOk]⟩

/-! ### Who writes the store and the call stack -/

/-- Settles O27: the store's contents are kept by everything in a step but a STORE of the decoded pair. -/
theorem onlyStoreWritesTheStore : Obligations.OnlyStoreWritesTheStore := by
  intro s t h
  contrapose!
  intro hno
  refine step_keeps (I := fun t => t.mem = s.mem) h (fun _ => rfl) (fun _ => rfl) (fun _ _ ht => ht) ?_
  intro d i v t hf hi _ hv hx
  obtain hm | ⟨_, _, rfl, -⟩ := exec_mem hx
  · exact hm.trans hv
  · obtain ⟨h1, h2⟩ := hno d hf
    obtain h' | h' := hi
    · exact absurd h'.symm h1
    · exact absurd h'.symm h2

/-- The high slot holds no control transfer and no HALT (R91). -/
theorem highTable_not_low_only {P : Params} {v : Trybble} {i : Instr} (h : opOf (highTable P) v = some i) :
    i.isTransfer = false ∧ i ≠ .halt := by
  have hfixed : ∀ r ∈ simpleTable, r.2.isTransfer = false ∧ r.2 ≠ .halt := by decide
  obtain hm | hm := List.mem_append.mp (mem_of_opOf h)
  · exact hfixed _ hm
  · obtain ⟨⟨_, r⟩, -, he⟩ := List.mem_map.mp hm
    cases he
    cases r <;> exact ⟨rfl, by simp [ReservedOp.toInstr]⟩

theorem decodeAt_first_not_low_only {P : Params} {read : Int → Option Tryte} {p : Int} {d : Decoded}
    (h : decodeAt P read p = .ok d) : d.ops.first.isTransfer = false ∧ d.ops.first ≠ .halt := by
  obtain ⟨t, -, ⟨-, rfl⟩ | ⟨-, hi, -⟩⟩ := decodeAt_inv h
  · exact ⟨rfl, by simp⟩
  · exact highTable_not_low_only hi

/-- Settles O49: the first operation is no control transfer, so it is the second that is CALL or RETURN. -/
theorem onlyCallAndReturnTouchTheCallStack : Obligations.OnlyCallAndReturnTouchTheCallStack := by
  intro s t h
  contrapose!
  intro hno
  refine step_keeps (I := fun t => t.cstack = s.cstack) h (fun _ => rfl) (fun _ => rfl) (fun _ _ ht => ht) ?_
  intro d i v t hf hi _ hv hx
  obtain ⟨hc, hr⟩ : i ≠ .call ∧ i ≠ .ret := by
    obtain rfl | rfl := hi
    · exact Instr.ne_call_and_ne_ret (decodeAt_first_not_low_only hf).1
    · exact hno d hf
  exact (exec_cstack hc hr hx).trans hv

end Sys2Proof.Machine

/-! ## The bound of R26 -/

namespace Sys2Proof

/-- An accepted address lies between the limits of R53. -/
theorem Params.accepts_bounds {P : Params} (hP : P.Admissible) {a : Int} (h : P.accepts a = true) :
    -29524 ≤ a ∧ a ≤ 59048 := by
  obtain ⟨⟨hranges, -⟩, -⟩ := hP
  obtain ⟨r, hr, ha⟩ := List.any_eq_true.mp h
  have hb := hranges r hr
  have ha := of_decide_eq_true ha
  omega

/-- A decode consumes one to three trytes (R98). -/
theorem decodeAt_next_bounds {P : Params} {read : Int → Option Tryte} {p : Int} {d : Decoded}
    (h : decodeAt P read p = .ok d) : p + 1 ≤ d.next ∧ d.next ≤ p + 3 := by
  obtain ⟨t, -, ⟨-, rfl⟩ | ⟨-, -, ⟨-, _, -, -, hn⟩ | ⟨-, _, _, -, -, -, hn⟩ | ⟨-, -, -, hn⟩⟩⟩ := decodeAt_inv h
  · constructor <;> simp only <;> omega
  all_goals omega

end Sys2Proof

namespace Sys2Proof.Machine

theorem State.accepts_of_memRead {s : State} {a : Int} {v : Tryte} (h : s.memRead a = some v) :
    s.params.accepts a = true := by
  obtain ⟨ha, -⟩ | ⟨-, hn⟩ := s.memRead_cases a
  · exact ha
  · rw [hn] at h; cases h

/-- The address of an instruction that decodes is accepted. -/
theorem State.fetch_accepts {s : State} {d : Decoded} (h : s.fetch = .ok d) : s.params.accepts s.pc = true := by
  obtain ⟨t, ht, -⟩ := decodeAt_inv h
  exact State.accepts_of_memRead ht

/-- A `pc` that every branch offset keeps within a word, above return addresses within a word. A dispatch begins there: the
post-decode pc lies at most three past an accepted address. -/
abbrev State.PcCentral (s : State) : Prop :=
  (-265356 ≤ s.pc ∧ s.pc ≤ 265356) ∧ ∀ p ∈ s.cstack, -265720 ≤ p ∧ p ≤ 265720

theorem State.PcCentral.pcBounded {s : State} (h : s.PcCentral) : s.PcBounded := by
  obtain ⟨hpc, hC⟩ := h
  exact ⟨by omega, hC⟩

theorem State.setPc_next_pcCentral {s : State} {d : Decoded} (hP : s.params.Admissible) (hs : s.PcBounded)
    (hf : s.fetch = .ok d) : (s.setPc d.next).PcCentral := by
  have ha := Params.accepts_bounds hP (s.fetch_accepts hf)
  have hn := decodeAt_next_bounds hf
  refine ⟨?_, hs.2⟩
  rw [State.setPc_pc]
  omega

/-- A transfer goes to a word, to a return address, or at most a tryte away. -/
theorem exec_pcBounded {i : Instr} {s t : State} (h : exec i s = .next t) (hs : s.PcCentral) : t.PcBounded := by
  have hb := hs.pcBounded
  obtain ⟨hpc, hC⟩ := hs
  obtain ⟨e, hp, rfl⟩ := exec_inv h
  cases hp with
  | stack | store | halt | raise => exact hb
  | ret hE =>
    rw [hE, List.forall_mem_cons] at hC
    exact hC
  | jump => exact ⟨Word.inRange _, hC⟩
  | call => exact ⟨Word.inRange _, List.forall_mem_cons.mpr ⟨hb.1, hC⟩⟩
  | branch _ _ hp =>
    refine ⟨?_, hC⟩
    have hoff := Tryte.inRange ‹_›
    obtain rfl | rfl := hp <;> simp only [Effect.apply_put] <;> omega

/-- Settles O4: the first operation is no transfer, so the second is still dispatched at the post-decode pc. -/
theorem stepKeepsPcAndReturnAddressesBounded : Obligations.StepKeepsPcAndReturnAddressesBounded := by
  intro s u hP hs h
  obtain ⟨-, ⟨e, -, rfl⟩ | ⟨d, hf, hd⟩⟩ := step_inv h
  · exact hs
  · have hcentral := State.setPc_next_pcCentral hP hs hf
    obtain ⟨t, ht, hend⟩ := dispatchPair_inv hd
    obtain ⟨-, rfl⟩ | ⟨-, w, hw, rfl⟩ := hend
    · simpa only [State.PcBounded, State.retire_pc, State.retire_cstack] using exec_pcBounded ht hcentral
    · obtain ⟨hfirst, -⟩ := decodeAt_first_not_low_only hf
      obtain ⟨hc, hr⟩ := Instr.ne_call_and_ne_ret hfirst
      have ht' : t.retire.PcCentral := by
        simpa only [State.PcCentral, State.retire_pc, State.retire_cstack, exec_pc hfirst ht,
          exec_cstack hc hr ht] using hcentral
      simpa only [State.PcBounded, State.retire_pc, State.retire_cstack] using exec_pcBounded hw ht'

/-! ## When a step is taken (R34), and what it counts (R124) -/

theorem dispatchPair_total (p : Pair) (s : State) : ∃ t, dispatchPair p s = .next t := by
  obtain ⟨t, ht⟩ := exec_total p.first s
  by_cases hst : t.st = .running
  · obtain ⟨w, hw⟩ := exec_total p.second t.retire
    exact ⟨_, dispatchPair_of_both ht hst hw⟩
  · exact ⟨_, dispatchPair_of_first_ends ht hst⟩

theorem step_of_fetch_error {s : State} {e : DecodeError} (hs : s.st = .running) (hf : s.fetch = .error e) :
    step s = .next (s.raise (faultOfDecode e)) := by
  simp only [step, stepCore, hs, runStep, hf]

/-- Settles O6: a running core's decode fails, or its pair is dispatched, and every dispatch answers. -/
theorem stepEnabledExactlyWhenRunning : Obligations.StepEnabledExactlyWhenRunning := by
  intro s
  refine ⟨fun hs => ?_, fun hs => by simp [step, stepCore, hs], fun hs => by simp [step, stepCore, hs]⟩
  cases hf : s.fetch with
  | error e => exact ⟨_, step_of_fetch_error hs hf⟩
  | ok d =>
    obtain ⟨t, ht⟩ := dispatchPair_total d.ops (s.setPc d.next)
    exact ⟨t, (step_of_fetch_ok hs hf).trans ht⟩

/-- An operation other than HALT leaves a running core running, or it faults. -/
theorem exec_running_or_faulted {i : Instr} {s t : State} (h : exec i s = .next t) (hi : i ≠ .halt)
    (hs : s.st = .running) : t.st = .running ∨ t.st = .faulted := by
  obtain ⟨hst, -⟩ | ⟨rfl, -⟩ | ⟨f, rfl⟩ := exec_status h
  · exact .inl (hst.trans hs)
  · exact absurd rfl hi
  · exact .inr rfl

/-- Settles O8: no operation writes `cy`, so the step's count is that of its `retire`s; a first operation is no HALT. -/
theorem stepCountsItsCompletedOperations : Obligations.StepCountsItsCompletedOperations := by
  intro s u h
  obtain ⟨hs, ⟨e, hf, rfl⟩ | ⟨d, hf, hd⟩⟩ := step_inv h
  · exact ⟨fun hne => absurd rfl hne, fun _ => .inl ⟨⟨e, hf⟩, rfl⟩⟩
  obtain ⟨-, hhalt⟩ := decodeAt_first_not_low_only hf
  obtain ⟨t, ht, ⟨hst, rfl⟩ | ⟨hst, w, hw, rfl⟩⟩ := dispatchPair_inv hd
  all_goals have hcy : t.cy = s.cy := by rw [exec_cy ht, State.setPc_cy]
  · have hft : t.st = .faulted := (exec_running_or_faulted ht hhalt hs).resolve_left hst
    rw [State.retire_of_faulted hft]
    exact ⟨fun hne => absurd hft hne, fun _ => .inr ⟨d, t, hf, ht, .inl ⟨hft, hcy⟩⟩⟩
  · rw [State.retire_of_not_faulted (by simp [hst])] at hw
    have hcyw : w.cy = s.cy + 1 := by rw [exec_cy hw, State.tick_cy, hcy]
    refine ⟨fun hne => ?_, fun hfw => ?_⟩
    · rw [State.retire_st] at hne
      rw [State.retire_of_not_faulted hne, State.tick_cy, hcyw]
    · rw [State.retire_st] at hfw
      rw [State.retire_of_faulted hfw]
      exact .inr ⟨d, t, hf, ht, .inr ⟨hst, hcyw, w, hw, hfw⟩⟩

/-! ## What is never read (R33, R34)

`mask n g` adds `n` to the counter and puts the record through `g`, but not a record a fault has put there: a raise overwrites
what was recorded before. Every layer of a step of a running core commutes with it. -/

/-- The state with `n` more counted, and `g` applied to the record of a core that has not faulted. -/
def State.mask (s : State) (n : Nat) (g : Option FaultRecord → Option FaultRecord) : State :=
  s.relabel (s.cy + n) (if s.st = .faulted then s.fault else g s.fault)

section
variable {s t u : State} (n : Nat) (g : Option FaultRecord → Option FaultRecord)

@[simp] theorem State.mask_st (s : State) : (s.mask n g).st = s.st := rfl

theorem State.fetch_mask (s : State) : (s.mask n g).fetch = s.fetch := rfl

theorem State.setPc_mask (s : State) (p : Int) : (s.mask n g).setPc p = (s.setPc p).mask n g := rfl

theorem State.raise_mask (s : State) (f : FaultRecord) : (s.mask n g).raise f = (s.raise f).mask n g := rfl

theorem State.tick_mask (s : State) : (s.mask n g).tick = s.tick.mask n g := by
  rw [State.mask, State.mask, State.tick_cy, Nat.add_right_comm]
  rfl

theorem State.retire_mask (s : State) : (s.mask n g).retire = s.retire.mask n g := by
  by_cases h : s.st = .faulted
  · rw [State.retire_of_faulted h, State.retire_of_faulted (s := s.mask n g) h]
  · rw [State.retire_of_not_faulted h, State.retire_of_not_faulted (s := s.mask n g) h, State.tick_mask]

theorem Effect.apply_mask (e : Effect) (hs : s.st = .running) : e.apply (s.mask n g) = (e.apply s).mask n g := by
  cases e with
  | put => rfl
  | halt => simp [State.mask, State.relabel, State.halt, hs]
  | raise f => exact s.raise_mask n g f

theorem exec_mask {i : Instr} (hs : s.st = .running) (h : exec i s = .next t) :
    exec i (s.mask n g) = .next (t.mask n g) := by
  obtain ⟨e, -, he⟩ := exec_effect i s
  have ht : exec i s = .next (e.apply s) := he s.cy s.fault
  rw [h] at ht
  injection ht with ht
  rw [ht, ← e.apply_mask n g hs]
  exact he _ _

theorem dispatchPair_mask {p : Pair} (hs : s.st = .running) (h : dispatchPair p s = .next u) :
    dispatchPair p (s.mask n g) = .next (u.mask n g) := by
  obtain ⟨t, ht, ⟨hst, rfl⟩ | ⟨hst, w, hw, rfl⟩⟩ := dispatchPair_inv h
  · rw [← State.retire_mask]
    exact dispatchPair_of_first_ends (exec_mask n g hs ht) hst
  · have hw' := exec_mask n g (t.retire_st.trans hst) hw
    rw [← State.retire_mask] at hw' ⊢
    exact dispatchPair_of_both (exec_mask n g hs ht) hst hw'

theorem step_mask (h : step s = .next u) : step (s.mask n g) = .next (u.mask n g) := by
  obtain ⟨hs, ⟨e, hf, rfl⟩ | ⟨d, hf, hd⟩⟩ := step_inv h
  · exact step_of_fetch_error (s := s.mask n g) hs hf
  · exact (step_of_fetch_ok (s := s.mask n g) hs hf).trans (dispatchPair_mask (s := s.setPc d.next) n g hs hd)

end

theorem State.mask_id (s : State) (n : Nat) : s.mask n id = { s with cy := s.cy + n } := by
  simp [State.mask, State.relabel]

theorem State.mask_const (s : State) (f : Option FaultRecord) :
    s.mask 0 (fun _ => f) = if s.st = .faulted then s else { s with fault := f } := by
  unfold State.mask State.relabel
  split <;> rfl

/-- Settles O9: both differences are masks, and a step commutes with every mask. -/
theorem counterAndRecordAreUnobservable : Obligations.CounterAndRecordAreUnobservable := by
  intro s t h
  refine ⟨fun n => ?_, fun f => ?_⟩
  · rw [← State.mask_id, ← State.mask_id]
    exact step_mask n id h
  · have hm := step_mask 0 (fun _ => f) h
    rwa [State.mask_const, State.mask_const, if_neg (by simp [(step_inv h).1])] at hm

/-! ## Construction, literals, an invalid pc -/

theorem std_accepts (a : Int) : Params.std.accepts a = decide (-29524 ≤ a ∧ a ≤ 29524) := by
  simp [Params.accepts, Params.std]

/-- Settles O1: at reset no cell is listed, and the default range decides what is accepted. -/
theorem constructionGivesTheResetState : Obligations.ConstructionGivesTheResetState := by
  refine ⟨fun P p m => ⟨rfl, rfl, rfl, rfl, rfl, rfl, rfl, rfl⟩, rfl, fun a => ?_⟩
  have hp : State.reset.params = Params.std := rfl
  have hm : State.reset.mem.get a = ty 0 := rfl
  simp only [State.memRead, hp, hm, std_accepts, decide_eq_true_eq]

/-- Settles O28: the pushed values are the immediate widened, the immediate, and the two trytes of the word. -/
theorem literalsPushTheirImmediate : Obligations.LiteralsPushTheirImmediate :=
  ⟨fun _ v => ⟨widen v, rfl, rfl, rfl⟩, fun _ _ => ⟨rfl, rfl⟩,
    fun _ w => ⟨whi w, wlo w, congrArg Word.val (Laws.joinWord_whi_wlo w).symm, rfl⟩⟩

/-- Settles O48: the decoder's first read is the one at `pc`. -/
theorem invalidPcFaultsAtTheFetch : Obligations.InvalidPcFaultsAtTheFetch := by
  intro s hs ha
  have hr : s.memRead s.pc = none := by simp [State.memRead, ha]
  have hf : s.fetch = .error (.address s.pc) := by simp only [State.fetch, decodeAt, readOr, hr]
  exact step_of_fetch_error hs hf

end Sys2Proof.Machine

/-! ## A STORE into its own instruction (R270) -/

namespace Sys2Proof

/-- No simple operation has the value that selects the inline literal (R86). -/
theorem Params.Admissible.ne_litHi {P : Params} (hP : P.Admissible) {v : Trybble} (hv : v.val ∈ simpleCodes) :
    v ≠ P.litHi := by
  obtain ⟨-, ⟨hsimple, -⟩, -⟩ := hP
  rintro rfl
  exact hsimple hv

/-- LITX in the low slot (R94). -/
theorem decodeAt_litx {P : Params} {read : Int → Option Tryte} {p : Int} {h : Trybble} {i : Instr} {v : Tryte}
    (hl : h ≠ P.litHi) (hi : opOf (highTable P) h = some i) (ht : read p = some (joinTryte h litxCode))
    (hv : read (p + 1) = some v) : decodeAt P read p = .ok ⟨⟨i, .litx v⟩, p + 2⟩ := by
  simp [decodeAt, readOr, decodeLow, ht, hl, hi, hv]

end Sys2Proof

namespace Sys2Proof.Machine

theorem exec_store_of_accepts {s : State} {v H L : Tryte} {S : List Tryte} (hE : s.estack = L :: H :: v :: S)
    (ha : s.params.accepts (joinWord H L).val = true) :
    exec .store s = .next ((s.setMem (s.mem.set (joinWord H L).val v)).setEstack S) := by
  simp only [exec_store, hE, ha, if_true]

/-- Settles O25: the decode has read the operand before the STORE overwrites it. -/
theorem storeIntoItsOwnOperandTryte : Obligations.StoreIntoItsOwnOperandTryte := by
  intro s old v H L S hP hs ht hold hE haddr
  have ha : s.params.accepts (s.pc + 1) = true := State.accepts_of_memRead hold
  have hf : s.fetch = .ok ⟨⟨.store, .litx old⟩, s.pc + 2⟩ :=
    decodeAt_litx (hP.ne_litHi (by decide)) rfl ht hold
  have hw : (joinWord H L).val = s.pc + 1 := haddr
  have hfirst := exec_store_of_accepts (s := s.setPc (s.pc + 2)) hE (by rw [hw]; exact ha)
  rw [hw] at hfirst
  refine ⟨_, (step_of_fetch_ok hs hf).trans (dispatchPair_of_both hfirst hs rfl), ?_⟩
  simp [State.retire_of_not_faulted, hs, State.memRead, ha]

end Sys2Proof.Machine

/-! PROOFS. The port of the store (O24), the frame of STORE (O57), and a LOAD beside the STORE it sees (O26). -/

/-! ## The port (R54, R55) -/

namespace Sys2Proof.Machine

theorem State.memRead_eq_none_iff (s : State) (a : Int) : s.memRead a = none ↔ s.params.accepts a = false := by
  obtain ⟨ha, hr⟩ | ⟨ha, hr⟩ := s.memRead_cases a <;> simp [ha, hr]

theorem State.memWrite_eq_none_iff (s : State) (a : Int) (v : Tryte) :
    s.memWrite a v = none ↔ s.params.accepts a = false := by
  obtain ⟨ha, hw⟩ | ⟨ha, hw⟩ := s.memWrite_cases a v <;> simp [ha, hw]

theorem State.memWrite_eq_some {s t : State} {a : Int} {v : Tryte} (h : s.memWrite a v = some t) :
    s.params.accepts a = true ∧ t = s.setMem (s.mem.set a v) := by
  obtain ⟨ha, hw⟩ | ⟨-, hw⟩ := s.memWrite_cases a v
  · exact ⟨ha, Option.some.inj (h.symm.trans hw)⟩
  · cases h.symm.trans hw

/-- Settles O24: what the port accepts does not depend on the contents, and a write that is answered sets one cell of them. -/
theorem storeIsARandomAccessMemory : Obligations.StoreIsARandomAccessMemory := by
  intro s a v
  refine ⟨s.memRead_eq_none_iff a, s.memWrite_eq_none_iff a v, fun t h => ?_⟩
  obtain ⟨ha, rfl⟩ := State.memWrite_eq_some h
  refine ⟨?_, fun b hb => ?_, rfl⟩
  · simp [State.memRead, ha]
  · simp [State.memRead, Memory.get_set_other _ _ hb]

/-! ## STORE (R171) -/

/-- Everything a STORE can come to: the write and the three pops, or a fault, and that only where an operand is missing or the
store rejects the address. -/
theorem exec_store_inv {s t : State} (h : exec .store s = .next t) :
    (∃ v H L S, s.estack = L :: H :: v :: S ∧ s.params.accepts (joinWord H L).val = true ∧
        t = (s.setMem (s.mem.set (joinWord H L).val v)).setEstack S) ∨
      ∃ f, t = s.raise f ∧
        ∀ v H L S, s.estack = L :: H :: v :: S → s.params.accepts (joinWord H L).val = false := by
  rw [exec_store] at h
  injection h with h
  subst h
  split
  · next L H v S hE =>
    split
    · next ha => exact .inl ⟨v, H, L, S, hE, ha, rfl⟩
    · next ha =>
      refine .inr ⟨_, rfl, fun v' H' L' S' hE' => ?_⟩
      obtain ⟨rfl, rfl, -⟩ : L = L' ∧ H = H' ∧ v = v' ∧ S = S' := by simpa [hE] using hE'
      exact Bool.eq_false_of_not_eq_true ha
  · next hE => exact .inr ⟨_, rfl, fun v H L S hS => (hE L H v S hS).elim⟩

/-- Settles O57: STORE is no control transfer, and a write leaves every other cell alone. -/
theorem storeFrame : Obligations.StoreFrame := by
  intro s t h
  refine ⟨exec_pc rfl h, exec_cstack (by decide) (by decide) h, exec_cy h, exec_params h, ?_⟩
  obtain ⟨v, H, L, S, hE, -, rfl⟩ | ⟨f, rfl, hrejects⟩ := exec_store_inv h
  · refine ⟨fun v' H' L' S' hE' => ?_, fun hlen => ?_, .inl ⟨rfl, rfl⟩⟩
    · obtain ⟨rfl, rfl, rfl, rfl⟩ : L = L' ∧ H = H' ∧ v = v' ∧ S = S' := by simpa [hE] using hE'
      exact ⟨fun _ => ⟨rfl, rfl⟩, fun _ => Memory.get_set_other _ _⟩
    · simp +arith [hE] at hlen
  · refine ⟨fun v H L S hE => ⟨fun ha => ?_, fun _ _ => rfl⟩, fun _ _ => rfl, .inr ⟨rfl, rfl, rfl, fun _ => rfl⟩⟩
    rw [hrejects v H L S hE] at ha
    cases ha

end Sys2Proof.Machine

/-! ## A LOAD beside a STORE (R63) -/

namespace Sys2Proof

/-- An operation without operand trytes in the low slot (R93). -/
theorem decodeAt_table {P : Params} {read : Int → Option Tryte} {p : Int} {h l : Trybble} {i j : Instr}
    (hh : h ≠ P.litHi) (hi : opOf (highTable P) h = some i) (hx : l ≠ litxCode) (hw : l ≠ wordCode)
    (hj : opOf (lowTable P) l = some j) (ht : read p = some (joinTryte h l)) :
    decodeAt P read p = .ok ⟨⟨i, j⟩, p + 1⟩ := by
  simp [decodeAt, readOr, decodeLow, ht, hh, hi, hx, hw, hj]

end Sys2Proof

namespace Sys2Proof.Machine

@[simp] theorem State.retire_estack (s : State) : s.retire.estack = s.estack := by
  obtain ⟨n, h⟩ := s.retire_eq
  rw [h]

@[simp] theorem State.retire_params (s : State) : s.retire.params = s.params := by
  obtain ⟨n, h⟩ := s.retire_eq
  rw [h]

theorem exec_load_of_accepts {s : State} {H L : Tryte} {S : List Tryte} (hE : s.estack = L :: H :: S)
    (ha : s.params.accepts (joinWord H L).val = true) :
    exec .load s = .next (s.setEstack (s.mem.get (joinWord H L).val :: S)) := by
  simp only [exec_load, hE, ha, if_true]

/-- Settles O26: the LOAD is dispatched on the state the STORE left, and reads the cell it wrote. -/
theorem loadSeesTheStoreBesideIt : Obligations.LoadSeesTheStoreBesideIt := by
  intro s v H L S hP hs ht hE ha
  have hf : s.fetch = .ok ⟨⟨.store, .load⟩, s.pc + 1⟩ :=
    decodeAt_table (hP.ne_litHi (by decide)) rfl (by decide) (by decide) rfl ht
  have hstore := exec_store_of_accepts (s := s.setPc (s.pc + 1)) hE ha
  have hpair := dispatchPair_of_both (p := ⟨.store, .load⟩) hstore hs
    (exec_load_of_accepts (H := H) (L := L) (S := S) (by simp) (by simpa using ha))
  refine ⟨_, (step_of_fetch_ok hs hf).trans hpair, ?_⟩
  simp [State.retire_of_not_faulted, hs, State.memRead, ha]

end Sys2Proof.Machine

/-! PROOFS. Encoding and decoding (`30_encoding.md`): the formats of R81 as one relation between a pair and its trytes, with which
the decoder, the encoder and well-formedness agree (O13 to O16), the length (O17), the ways a decode fails (O19 to O21), and
steps of decoded instructions (O7, O18, O22, O52). -/

/-! ## The rows of the decode tables (R84, R85, R91, R92) -/

namespace Sys2Proof

theorem val_mem_simpleCodes {v : Trybble} {i : Instr} (h : (v, i) ∈ simpleTable) : v.val ∈ simpleCodes := by
  rw [← simpleTable_values]
  exact List.mem_map_of_mem (f := fun r : Trybble × Instr => r.1.val) h

theorem mem_reservedRows {m : List (Trybble × ReservedOp)} {v : Trybble} {i : Instr} :
    (v, i) ∈ reservedRows m ↔ ∃ r, (v, r) ∈ m ∧ r.toInstr = i := by
  simp [reservedRows]

theorem mem_highTable {P : Params} {v : Trybble} {i : Instr} :
    (v, i) ∈ highTable P ↔ (v, i) ∈ simpleTable ∨ ∃ r, (v, r) ∈ P.reservedHi ∧ r.toInstr = i := by
  rw [highTable, List.mem_append, mem_reservedRows]

theorem hasCode_iff {m : List (Trybble × ReservedOp)} {r : ReservedOp} : hasCode m r = true ↔ ∃ v, (v, r) ∈ m := by
  simp [hasCode]

/-- The operations of a table that is made of fixed rows and a reserved map. -/
theorem exists_row_iff {T : List (Trybble × Instr)} {m : List (Trybble × ReservedOp)} {i : Instr} :
    (∃ v, (v, i) ∈ T ++ reservedRows m) ↔ i ∈ T.map Prod.snd ∨ ∃ r, hasCode m r = true ∧ r.toInstr = i := by
  simp only [List.mem_append, mem_reservedRows, exists_or, hasCode_iff, ← exists_and_right]
  rw [exists_comm (α := Trybble) (β := ReservedOp)]
  simp

/-- The high slot holds the operations of its table (R90). -/
theorem Instr.fitsHigh_iff {P : Params} {i : Instr} : i.fitsHigh P = true ↔ ∃ v, (v, i) ∈ highTable P := by
  rw [highTable, exists_row_iff]
  refine ⟨fun h => ?_, ?_⟩
  · cases i
    case lit | litx | word | halt | ret | jump | call | brn | brz | brp => cases h
    case inc | max | shl | shr | signed | unsigned => exact .inr ⟨_, h, rfl⟩
    all_goals exact .inl (by decide)
  · rintro (h | ⟨r, hr, rfl⟩)
    · have hall : ∀ j ∈ simpleTable.map Prod.snd, j.fitsHigh P = true := by simp [simpleTable, Instr.fitsHigh]
      exact hall i h
    · cases r <;> exact hr

/-- The low slot holds LITX, WORD and the operations of its table (R93). -/
theorem Instr.fitsLow_iff {P : Params} {i : Instr} :
    i.fitsLow P = true ↔ (∃ v, i = .litx v) ∨ (∃ w, i = .word w) ∨ ∃ v, (v, i) ∈ lowTable P := by
  rw [lowTable, exists_row_iff]
  refine ⟨fun h => ?_, ?_⟩
  · cases i
    case lit => cases h
    case litx v => exact .inl ⟨v, rfl⟩
    case word w => exact .inr (.inl ⟨w, rfl⟩)
    case inc | max | shl | shr | signed | unsigned => exact .inr (.inr (.inr ⟨_, h, rfl⟩))
    all_goals exact .inr (.inr (.inl (by decide)))
  · rintro (⟨v, rfl⟩ | ⟨w, rfl⟩ | h | ⟨r, hr, rfl⟩)
    · rfl
    · rfl
    · have hall : ∀ j ∈ (ext0Table ++ simpleTable).map Prod.snd, j.fitsLow P = true := by
        simp [ext0Table, simpleTable, Instr.fitsLow]
      exact hall i h
    · cases r <;> exact hr

/-- An operation without an operand tryte is no LITX and no WORD. -/
theorem ne_operand_of_mem_lowTable {P : Params} {l : Trybble} {i : Instr} (h : (l, i) ∈ lowTable P) :
    (∀ v, i ≠ .litx v) ∧ ∀ w, i ≠ .word w := by
  rw [lowTable, List.mem_append, mem_reservedRows] at h
  obtain h | ⟨r, -, rfl⟩ := h
  · constructor <;> rintro _ rfl <;> simp [ext0Table, simpleTable] at h
  · cases r <;> simp [ReservedOp.toInstr]

/-! ### Under admissible parameters -/

/-- No high-slot operation has the value that selects the inline literal (R86). -/
theorem Params.Admissible.ne_litHi_of_mem_highTable {P : Params} (hP : P.Admissible) {h : Trybble} {i : Instr}
    (hi : (h, i) ∈ highTable P) : h ≠ P.litHi := by
  obtain hi | ⟨r, hr, -⟩ := mem_highTable.mp hi
  · exact hP.ne_litHi (val_mem_simpleCodes hi)
  · obtain ⟨-, ⟨-, hreserved⟩, -⟩ := hP
    exact hreserved _ hr

theorem Params.Admissible.opOf_highTable {P : Params} (hP : P.Admissible) {h : Trybble} {i : Instr}
    (hi : (h, i) ∈ highTable P) : opOf (highTable P) h = some i :=
  opOf_of_mem (Laws.highTable_values_nodup hP) hi

/-- A row of the low-slot table is what its value looks up, and that value takes no operand tryte. -/
theorem Params.Admissible.opOf_lowTable {P : Params} (hP : P.Admissible) {l : Trybble} {i : Instr}
    (hi : (l, i) ∈ lowTable P) : opOf (lowTable P) l = some i ∧ l ≠ litxCode ∧ l ≠ wordCode := by
  obtain ⟨hvalues, -, hdisjoint⟩ := List.nodup_append.mp (Laws.lowTable_values_nodup hP)
  have hl : l ∈ (lowTable P).map Prod.fst := List.mem_map_of_mem (f := Prod.fst) hi
  exact ⟨opOf_of_mem hvalues hi, hdisjoint l hl _ (by simp), hdisjoint l hl _ (by simp)⟩

/-- No operation stands twice in a table whose reserved map is injective. -/
theorem operations_nodup {T : List (Trybble × Instr)} {m : List (Trybble × ReservedOp)}
    (hT : T.Sublist (ext0Table ++ simpleTable)) (hm : (m.map Prod.snd).Nodup) :
    ((T ++ reservedRows m).map Prod.snd).Nodup := by
  have hrows : (reservedRows m).map Prod.snd = (m.map Prod.snd).map ReservedOp.toInstr := by
    simp [reservedRows, Function.comp_def]
  rw [List.map_append, List.nodup_append, hrows]
  refine ⟨fixed_low_operations_nodup.sublist (hT.map _), hm.map ReservedOp.toInstr_injective, ?_⟩
  rintro i hi j hj rfl
  obtain ⟨r, -, rfl⟩ := List.mem_map.mp hj
  exact reserved_not_fixed r ((hT.map _).subset hi)

theorem Params.Admissible.codeOf_highTable {P : Params} (hP : P.Admissible) {h : Trybble} {i : Instr}
    (hi : (h, i) ∈ highTable P) : codeOf (highTable P) i = some h := by
  obtain ⟨-, -, -, -, -, hn, -⟩ := hP
  exact codeOf_of_mem (operations_nodup (List.sublist_append_right _ _) hn) hi

theorem Params.Admissible.codeOf_lowTable {P : Params} (hP : P.Admissible) {l : Trybble} {i : Instr}
    (hi : (l, i) ∈ lowTable P) : codeOf (lowTable P) i = some l := by
  obtain ⟨-, -, -, -, -, -, -, hn⟩ := hP
  exact codeOf_of_mem (operations_nodup (List.Sublist.refl _) hn) hi

/-! ## Where a list of trytes stands in the store -/

/-- `read` gives the trytes of a list, from address `p` on. -/
def ReadsAs (read : Int → Option Tryte) (p : Int) (ws : List Tryte) : Prop :=
  ∀ k : Nat, k < ws.length → read (p + k) = ws[k]?

@[simp] theorem readsAs_nil (read : Int → Option Tryte) (p : Int) : ReadsAs read p [] :=
  fun _ hk => absurd hk (Nat.not_lt_zero _)

@[simp] theorem readsAs_cons {read : Int → Option Tryte} {p : Int} {w : Tryte} {ws : List Tryte} :
    ReadsAs read p (w :: ws) ↔ read p = some w ∧ ReadsAs read (p + 1) ws := by
  have hshift : ∀ k : Nat, p + (k + 1 : Nat) = p + 1 + k := fun k => by omega
  simp only [ReadsAs, List.length_cons, Nat.forall_lt_succ_left', hshift]
  simp

theorem ReadsAs.congr {r1 r2 : Int → Option Tryte} {p : Int} {ws : List Tryte} (h : ReadsAs r1 p ws)
    (hr : ∀ a, p ≤ a → a < p + ws.length → r2 a = r1 a) : ReadsAs r2 p ws :=
  fun k hk => (hr _ (by omega) (by omega)).trans (h k hk)

/-! ## The formats (R81) -/

/-- The trytes of an instruction, by its format. -/
inductive Encoding (P : Params) : Pair → List Tryte → Prop
  | formatI (v : Trybble) : Encoding P ⟨.lit v, .nop⟩ [joinTryte P.litHi v]
  | formatP {h l : Trybble} {i j : Instr} (hh : h ≠ P.litHi) (hi : opOf (highTable P) h = some i) (hx : l ≠ litxCode)
      (hw : l ≠ wordCode) (hj : opOf (lowTable P) l = some j) : Encoding P ⟨i, j⟩ [joinTryte h l]
  | formatX1 {h : Trybble} {i : Instr} (hh : h ≠ P.litHi) (hi : opOf (highTable P) h = some i) (v : Tryte) :
      Encoding P ⟨i, .litx v⟩ [joinTryte h litxCode, v]
  | formatX2 {h : Trybble} {i : Instr} (hh : h ≠ P.litHi) (hi : opOf (highTable P) h = some i) (H L : Tryte) :
      Encoding P ⟨i, .word (joinWord H L)⟩ [joinTryte h wordCode, H, L]

section
variable {P : Params} {read : Int → Option Tryte} {p : Int}

theorem Tryte.exists_eq_joinTryte (t : Tryte) : ∃ h l, t = joinTryte h l :=
  ⟨hi3 t, lo3 t, (joinTryte_hi3_lo3 t).symm⟩

/-- The inline literal (R89). -/
theorem decodeAt_lit {v : Trybble} (ht : read p = some (joinTryte P.litHi v)) :
    decodeAt P read p = .ok ⟨⟨.lit v, .nop⟩, p + 1⟩ := by
  simp [decodeAt, readOr, ht]

/-- WORD in the low slot (R95). -/
theorem decodeAt_word {h : Trybble} {i : Instr} {H L : Tryte} (hh : h ≠ P.litHi)
    (hi : opOf (highTable P) h = some i) (ht : read p = some (joinTryte h wordCode)) (hH : read (p + 1) = some H)
    (hL : read (p + 2) = some L) : decodeAt P read p = .ok ⟨⟨i, .word (joinWord H L)⟩, p + 3⟩ := by
  have hne : wordCode ≠ litxCode := by decide
  simp [decodeAt, readOr, decodeLow, ht, hh, hi, hne, hH, hL]

theorem Encoding.decodeAt_eq {q : Pair} {ws : List Tryte} (h : Encoding P q ws) (hr : ReadsAs read p ws) :
    decodeAt P read p = .ok ⟨q, p + ws.length⟩ := by
  cases h with
  | formatI v => exact decodeAt_lit (readsAs_cons.mp hr).1
  | formatP hh hi hx hw hj => exact decodeAt_table hh hi hx hw hj (readsAs_cons.mp hr).1
  | formatX1 hh hi v =>
    obtain ⟨ht, hv, -⟩ : _ ∧ _ ∧ _ := by simpa only [readsAs_cons] using hr
    exact decodeAt_litx hh hi ht hv
  | formatX2 hh hi H L =>
    obtain ⟨ht, hH, hL, -⟩ : _ ∧ _ ∧ _ ∧ _ := by simpa only [readsAs_cons] using hr
    rw [add_assoc] at hL
    exact decodeAt_word hh hi ht hH hL

/-- Everything a decode that succeeds can come from, by format: the trytes it consumed are an encoding of its pair. -/
theorem Encoding.of_decodeAt {d : Decoded} (h : decodeAt P read p = .ok d) :
    ∃ ws, Encoding P d.ops ws ∧ ReadsAs read p ws ∧ d.next = p + ws.length := by
  obtain ⟨⟨i, j⟩, c⟩ := d
  obtain ⟨t, ht, h⟩ := decodeAt_inv h
  obtain ⟨h, l, rfl⟩ := t.exists_eq_joinTryte
  simp only [hi3_joinTryte, lo3_joinTryte] at h
  obtain ⟨rfl, hd⟩ | ⟨hh, hi, ⟨rfl, v, hv, rfl, rfl⟩ | ⟨rfl, H, L, hH, hL, rfl, rfl⟩ | ⟨hx, hw, hj, rfl⟩⟩ := h
  · cases hd
    exact ⟨_, .formatI l, by simp [ht], rfl⟩
  · exact ⟨_, .formatX1 hh hi v, by simp [ht, hv], rfl⟩
  · exact ⟨_, .formatX2 hh hi H L, by simp [ht, hH, add_assoc, hL], rfl⟩
  · exact ⟨_, .formatP hh hi hx hw hj, by simp [ht], rfl⟩

/-! ### The encoder writes the formats -/

theorem encode_of_slots {q : Pair} {h l : Trybble} {ops : List Tryte} (hh : codeOf (highTable P) q.first = some h)
    (hl : encodeLow P q.second = some (l, ops)) : encode P q = some (joinTryte h l :: ops) := by
  have hfits : q.first.fitsHigh P = true := Instr.fitsHigh_iff.mpr ⟨h, mem_of_codeOf hh⟩
  unfold encode
  split
  · next hv => rw [hv] at hfits; cases hfits
  · simp only [hh, hl]

theorem encodeLow_of_codeOf {j : Instr} {l : Trybble} (hj : codeOf (lowTable P) j = some l) :
    encodeLow P j = some (l, []) := by
  obtain ⟨hx, hw⟩ := ne_operand_of_mem_lowTable (mem_of_codeOf hj)
  unfold encodeLow
  split
  · exact absurd rfl (hx _)
  · exact absurd rfl (hw _)
  · simp only [hj]

theorem Encoding.encode_eq {q : Pair} {ws : List Tryte} (hP : P.Admissible) (h : Encoding P q ws) :
    encode P q = some ws := by
  cases h with
  | formatI v => simp [encode]
  | formatP _ hi _ _ hj =>
    exact encode_of_slots (hP.codeOf_highTable (mem_of_opOf hi))
      (encodeLow_of_codeOf (hP.codeOf_lowTable (mem_of_opOf hj)))
  | formatX1 _ hi v => exact encode_of_slots (hP.codeOf_highTable (mem_of_opOf hi)) rfl
  | formatX2 _ hi H L =>
    exact encode_of_slots (hP.codeOf_highTable (mem_of_opOf hi)) (by simp [encodeLow])

/-! ### The well-formed pairs are those with an encoding -/

theorem Pair.isFormatI_iff {q : Pair} : q.isFormatI = true ↔ ∃ v, q = ⟨.lit v, .nop⟩ := by
  obtain ⟨i, j⟩ := q
  cases i <;> simp [Pair.isFormatI, Instr.isInline]

theorem Encoding.wellFormed {q : Pair} {ws : List Tryte} (h : Encoding P q ws) : q.wellFormed P = true := by
  have hhigh : ∀ {v i}, opOf (highTable P) v = some i → i.fitsHigh P = true := fun hi =>
    Instr.fitsHigh_iff.mpr ⟨_, mem_of_opOf hi⟩
  cases h with
  | formatI v => rfl
  | formatP _ hi _ _ hj =>
    simp [Pair.wellFormed, hhigh hi, Instr.fitsLow_iff.mpr (.inr (.inr ⟨_, mem_of_opOf hj⟩))]
  | formatX1 _ hi v => simp [Pair.wellFormed, hhigh hi, Instr.fitsLow]
  | formatX2 _ hi H L => simp [Pair.wellFormed, hhigh hi, Instr.fitsLow]

theorem Encoding.exists_of_wellFormed {q : Pair} (hP : P.Admissible) (h : q.wellFormed P = true) :
    ∃ ws, Encoding P q ws := by
  rw [Pair.wellFormed, Bool.or_eq_true, Bool.and_eq_true, Pair.isFormatI_iff] at h
  obtain ⟨v, rfl⟩ | ⟨hfirst, hsecond⟩ := h
  · exact ⟨_, .formatI v⟩
  obtain ⟨i, j⟩ := q
  obtain ⟨h, hi⟩ := Instr.fitsHigh_iff.mp hfirst
  have hh := hP.ne_litHi_of_mem_highTable hi
  have hi := hP.opOf_highTable hi
  obtain ⟨v, rfl⟩ | ⟨w, rfl⟩ | ⟨l, hj⟩ := Instr.fitsLow_iff.mp hsecond
  · exact ⟨_, .formatX1 hh hi v⟩
  · rw [← Laws.joinWord_whi_wlo w]
    exact ⟨_, .formatX2 hh hi (whi w) (wlo w)⟩
  · obtain ⟨hj, hx, hw⟩ := hP.opOf_lowTable hj
    exact ⟨_, .formatP hh hi hx hw hj⟩

end

/-! ## The decoder against the encoder -/

/-- Settles O13: a well-formed pair has an encoding, which the encoder writes and the decoder reads. -/
theorem decodeInvertsEncode : Obligations.DecodeInvertsEncode := by
  intro P q hP hq
  obtain ⟨ws, h⟩ := Encoding.exists_of_wellFormed hP hq
  exact ⟨ws, h.encode_eq hP, fun _ _ hr => h.decodeAt_eq hr⟩

/-- Settles O14: the trytes a decode consumed are an encoding of its pair, and the encoder writes every encoding. -/
theorem encodeInvertsDecode : Obligations.EncodeInvertsDecode := by
  intro P read p d hP hd
  obtain ⟨ws, h, hr, hn⟩ := Encoding.of_decodeAt hd
  exact ⟨ws, h.encode_eq hP, hn, hr⟩

/-- Settles O15: every encoding is of a well-formed pair, whose first operation is inline or fits the high slot. -/
theorem decodedPairsAreWellFormed : Obligations.DecodedPairsAreWellFormed := by
  intro P read p d hd
  obtain ⟨ws, h, -⟩ := Encoding.of_decodeAt hd
  obtain ⟨htransfer, hhalt⟩ := Machine.decodeAt_first_not_low_only hd
  have hwf := h.wellFormed
  refine ⟨hwf, hhalt, htransfer, fun v hv => ?_, fun w hw => ?_, fun v hv => ?_⟩
  · simp [Pair.wellFormed, Pair.isFormatI, hv, Instr.isInline, Instr.fitsHigh] at hwf
  · simp [Pair.wellFormed, Pair.isFormatI, hw, Instr.isInline, Instr.fitsHigh] at hwf
  · simp [Pair.wellFormed, Pair.isFormatI, hv, Instr.fitsLow] at hwf

/-- Settles O16: no other address occurs in the decoder, and another store that gives the consumed trytes holds the same
encoding. -/
theorem decodeReadsOnlyTheInstruction : Obligations.DecodeReadsOnlyTheInstruction := by
  intro P r1 r2 p
  refine ⟨fun h0 h1 h2 => ?_, fun d hd hr => ?_⟩
  · simp only [decodeAt, decodeLow, readOr, h0, h1, h2]
  · obtain ⟨ws, h, hreads, hn⟩ := Encoding.of_decodeAt hd
    rw [h.decodeAt_eq (hreads.congr (hn ▸ hr)), ← hn]

/-- Settles O17: each format fixes its length, and the instruction tryte fixes the format. -/
theorem instructionTryteDecidesTheLength : Obligations.InstructionTryteDecidesTheLength := by
  intro P read p t d ht hd
  obtain ⟨ws, h, hr, hn⟩ := Encoding.of_decodeAt hd
  change d.next = p + if hi3 t = P.litHi then 1 else if lo3 t = litxCode then 2 else if lo3 t = wordCode then 3 else 1
  have hne : wordCode ≠ litxCode := by decide
  rw [hn]
  generalize d.ops = q at h
  cases h <;> obtain rfl := Option.some.inj (ht.symm.trans (readsAs_cons.mp hr).1)
  case formatI v => simp
  case formatP hh _ hx hw _ => simp [hh, hx, hw]
  case formatX1 hh _ v => simp [hh]
  case formatX2 hh _ H L => simp [hh, hne]

end Sys2Proof

/-! ## The ways a decode fails (R90, R94, R95, R99) -/

namespace Sys2Proof

section
variable {P : Params} {read : Int → Option Tryte} {p : Int} {e : DecodeError}

/-- Beside a legal high slot a decode fails as its low slot does (R87). -/
theorem decodeAt_eq_error_iff_of_first {h l : Trybble} {i : Instr} (ht : read p = some (joinTryte h l))
    (hh : h ≠ P.litHi) (hi : opOf (highTable P) h = some i) :
    decodeAt P read p = .error e ↔ decodeLow P read p l = .error e := by
  simp only [decodeAt, readOr, ht, hi3_joinTryte, lo3_joinTryte, if_neg hh, hi]
  cases decodeLow P read p l <;> simp

/-- The failures of the low slot: an operand tryte is rejected, or the value stands in no table. -/
theorem decodeLow_eq_error_iff {l : Trybble} : decodeLow P read p l = .error e ↔
    (e = .address (p + 1) ∧ (l = litxCode ∨ l = wordCode) ∧ read (p + 1) = none) ∨
      (e = .address (p + 2) ∧ l = wordCode ∧ (read (p + 1)).isSome = true ∧ read (p + 2) = none) ∨
      (e = .illegal p l ∧ l ≠ litxCode ∧ l ≠ wordCode ∧ opOf (lowTable P) l = none) := by
  have hne : wordCode ≠ litxCode := by decide
  by_cases hx : l = litxCode
  · subst hx
    cases h1 : read (p + 1) <;> simp [decodeLow, readOr, h1, hne.symm, eq_comm (a := e)]
  by_cases hw : l = wordCode
  · subst hw
    cases h1 : read (p + 1) <;> cases h2 : read (p + 2) <;> simp [decodeLow, readOr, h1, h2, hne, eq_comm (a := e)]
  · cases hj : opOf (lowTable P) l <;> simp [decodeLow, hx, hw, hj, eq_comm (a := e)]

end

/-- Settles O21: the decoder's reads and look-ups in their order, each with the failure it can end in. -/
theorem decodeFailsExactlyAsListed : Obligations.DecodeFailsExactlyAsListed := by
  intro P read p e
  cases ht : read p with
  | none => simp [decodeAt, readOr, ht, eq_comm (a := e)]
  | some t =>
    obtain ⟨h, l, rfl⟩ := t.exists_eq_joinTryte
    simp only [Option.some.injEq, reduceCtorEq, and_false, false_or, exists_eq_left', hi3_joinTryte, lo3_joinTryte]
    by_cases hh : h = P.litHi
    · subst hh
      simp [decodeAt_lit ht]
    · cases hi : opOf (highTable P) h with
      | none => simp [decodeAt, readOr, ht, hh, hi, eq_comm (a := e)]
      | some i =>
        rw [decodeAt_eq_error_iff_of_first ht hh hi, decodeLow_eq_error_iff]
        simp [hh, litxCode, wordCode]

/-- Settles O20: formats X1 and X2 where the operand trytes are read, and a listed failure where one is rejected. -/
theorem lowSlotReadsItsOperandTrytes : Obligations.LowSlotReadsItsOperandTrytes := by
  intro P read p t i ht hh hi
  obtain ⟨h, l, rfl⟩ := t.exists_eq_joinTryte
  simp only [hi3_joinTryte, lo3_joinTryte] at hh hi ⊢
  have hfail : ∀ e, decodeLow P read p l = .error e → decodeAt P read p = .error e := fun _ =>
    (decodeAt_eq_error_iff_of_first ht hh hi).mpr
  refine ⟨fun hl => ⟨fun v hv => ?_, fun hn => ?_⟩, fun hl => ⟨fun H L hH hL => ?_, fun hn => ?_, fun H hH hn => ?_⟩⟩
  all_goals subst hl
  · exact decodeAt_litx hh hi ht hv
  · exact hfail _ (decodeLow_eq_error_iff.mpr (.inl ⟨rfl, .inl rfl, hn⟩))
  · exact ⟨joinWord H L, rfl, decodeAt_word hh hi ht hH hL⟩
  · exact hfail _ (decodeLow_eq_error_iff.mpr (.inl ⟨rfl, .inr rfl, hn⟩))
  · exact hfail _ (decodeLow_eq_error_iff.mpr (.inr (.inl ⟨rfl, rfl, by simp [hH], hn⟩)))

/-! ### The high slot (R90) -/

theorem opOf_append_of_some {T U : List (Trybble × Instr)} {v : Trybble} {i : Instr} (h : opOf T v = some i) :
    opOf (T ++ U) v = some i := by
  induction T with
  | nil => cases h
  | cons r T ih =>
    simp only [List.cons_append, opOf] at h ⊢
    split_ifs at h ⊢
    · exact h
    · exact ih h

/-- The high-slot table has no value but those of the simple table and of `RESERVED_HI`. -/
theorem opOf_highTable_eq_none {P : Params} {v : Trybble} (hs : v.val ∉ simpleCodes)
    (hr : ∀ r, (v, r) ∉ P.reservedHi) : opOf (highTable P) v = none := by
  refine Option.eq_none_iff_forall_ne_some.mpr fun i hi => ?_
  obtain hm | ⟨r, hm, -⟩ := mem_highTable.mp (mem_of_opOf hi)
  · exact hs (val_mem_simpleCodes hm)
  · exact hr r hm

/-- The first operation is what the high-slot table gives the high trybble. -/
theorem opOf_highTable_of_decodeAt {P : Params} {read : Int → Option Tryte} {p : Int} {t : Tryte} {d : Decoded}
    (ht : read p = some t) (hh : hi3 t ≠ P.litHi) (hd : decodeAt P read p = .ok d) :
    opOf (highTable P) (hi3 t) = some d.ops.first := by
  obtain ⟨t', ht', h⟩ := decodeAt_inv hd
  obtain rfl := Option.some.inj (ht.symm.trans ht')
  obtain ⟨hl, -⟩ | ⟨-, hi, -⟩ := h
  · exact absurd hl hh
  · exact hi

/-- Settles O19: the first operation is the table's, and a value the table lacks is a listed failure. -/
theorem highTrybbleIsJudgedFirst : Obligations.HighTrybbleIsJudgedFirst := by
  intro P read p t ht hh
  refine ⟨fun i d hi hd => ?_, fun r d hP hr hd => ?_, fun hs hr => ?_⟩
  · have hfirst := opOf_highTable_of_decodeAt ht hh hd
    exact Option.some.inj (hfirst.symm.trans (opOf_append_of_some hi))
  · have hfirst := opOf_highTable_of_decodeAt ht hh hd
    exact Option.some.inj (hfirst.symm.trans (hP.opOf_highTable (mem_highTable.mpr (.inr ⟨r, hr, rfl⟩))))
  · exact (decodeFailsExactlyAsListed P read p _).mpr
      (.inr ⟨t, ht, hh, .inl ⟨rfl, opOf_highTable_eq_none hs hr⟩⟩)

/-! ## Written-out trytes (R84, R85, R100) -/

set_option maxRecDepth 3000 in
/-- Settles O22: by evaluating the decoder on each tryte. -/
theorem writtenOutTrytesDecode : Obligations.WrittenOutTrytesDecode :=
  ⟨rfl, rfl, rfl, rfl, rfl, by decide⟩

end Sys2Proof

/-! ## Steps of decoded instructions -/

namespace Sys2Proof.Machine

/-! ### Dispatch by variant (R83) -/

/-- LIT and LITX push the value of their variant. -/
theorem exec_of_operation_lit {i : Instr} {v : Tryte} (h : i.operation = .lit v) (s : State) :
    exec i s = .next (s.epush v) := by
  cases i
  case lit u => cases h; rfl
  case litx u => cases h; rfl
  all_goals cases h

theorem exec_eq_of_operation_eq {i j : Instr} (h : i.operation = j.operation) (s : State) : exec i s = exec j s := by
  by_cases hv : ∃ v, i.operation = .lit v
  · obtain ⟨v, hv⟩ := hv
    rw [exec_of_operation_lit hv, exec_of_operation_lit (h.symm.trans hv)]
  · have hinline : ∀ k : Instr, k.operation = i.operation → k.isInline = false := fun k hk => by
      cases k
      case lit u => exact absurd ⟨_, hk.symm⟩ hv
      all_goals rfl
    rw [Instr.eq_of_operation_eq h ((hinline i rfl).trans (hinline j h.symm).symm)]

/-- Settles O7: every operation has an effect, and apart from LIT against LITX a variant has one mnemonic. -/
theorem dispatchAlwaysAnswers : Obligations.DispatchAlwaysAnswers :=
  ⟨exec_total, fun _ _ s h => exec_eq_of_operation_eq h s⟩

/-! ### The inline literal (R89) and a reserved low-slot value (R101) -/

/-- Settles O18: the placeholder NOP is dispatched after the push, and both are counted. -/
theorem inlineLiteralTakesTheWholeTryte : Obligations.InlineLiteralTakesTheWholeTryte := by
  refine ⟨fun _ _ _ _ ht => decodeAt_lit ht, fun s v hs ht => ⟨widen v, rfl, ?_⟩⟩
  have hf : s.fetch = .ok ⟨⟨.lit v, .nop⟩, s.pc + 1⟩ := decodeAt_lit ht
  have hpair := dispatchPair_of_both (p := ⟨.lit v, .nop⟩) (s := s.setPc (s.pc + 1)) rfl hs rfl
  refine (step_of_fetch_ok hs hf).trans (hpair.trans ?_)
  simp [State.retire_of_not_faulted, hs, State.tick, State.setPc, State.setEstack]

/-- Every reserved operation raises its own fault (R203). -/
theorem exec_toInstr (r : ReservedOp) (s : State) : exec r.toInstr s = .next (s.raise (.unimplementedOpcode r)) := by
  cases r <;> rfl

theorem exec_drop_of_cons {s : State} {a : Tryte} {S : List Tryte} (hE : s.estack = a :: S) :
    exec .drop s = .next (s.setEstack S) := by
  rw [exec_drop, hE]

/-- Settles O52: the reserved value decodes, the DROP runs and is counted, and then the reserved operation faults. -/
theorem reservedValueFaultsAtDispatch : Obligations.ReservedValueFaultsAtDispatch := by
  intro s l r a S hP hs hr hlit ht hE
  obtain ⟨hj, hx, hw⟩ := hP.opOf_lowTable (i := r.toInstr)
    (List.mem_append_right _ (mem_reservedRows.mpr ⟨r, hr, rfl⟩))
  have hf : s.fetch = .ok ⟨⟨.drop, r.toInstr⟩, s.pc + 1⟩ := decodeAt_table hlit.symm rfl hx hw hj ht
  have hpair := dispatchPair_of_both (p := ⟨.drop, r.toInstr⟩) (s := s.setPc (s.pc + 1)) (exec_drop_of_cons hE) hs
    (exec_toInstr r _)
  refine (step_of_fetch_ok hs hf).trans (hpair.trans ?_)
  simp [State.retire_of_not_faulted, State.retire_of_faulted, hs, State.raise, State.tick, State.setPc, State.setEstack]

end Sys2Proof.Machine

/-! PROOFS. The execution loop (`40_execution_loop.md`): the decoded pair is run in order (O10), what a fault in the decoder
(O11) or in dispatch (O12) leaves, and where a branch offset counts from (O46). -/

namespace Sys2Proof.Machine

/-! ## A step that runs the decoded pair (R120 to R124) -/

theorem State.retire_eq_ite (s : State) : s.retire = if s.st = .faulted then s else s.tick := by
  split_ifs with h
  · exact State.retire_of_faulted h
  · exact State.retire_of_not_faulted h

/-- Settles O10: a first operation that faults ends the step uncounted; one that leaves the core running is counted, and the
second is dispatched on what it left. -/
theorem stepRunsTheDecodedPair : Obligations.StepRunsTheDecodedPair := by
  intro s d hs hf
  have hstep : step s = dispatchPair d.ops (s.setPc d.next) := step_of_fetch_ok hs hf
  refine ⟨fun t ht hfault => ?_, fun t u ht hrun hu => ?_⟩
  · have hends := dispatchPair_of_first_ends (s := s.setPc d.next) ht (by simp [hfault])
    rwa [State.retire_of_faulted hfault, ← hstep] at hends
  · have hcounted : t.retire = t.tick := State.retire_of_not_faulted (by simp [hrun])
    have hboth := dispatchPair_of_both (s := s.setPc d.next) ht hrun (by rw [hcounted]; exact hu)
    rwa [State.retire_eq_ite, ← hstep] at hboth

/-! ## What a fault leaves (R121, R126) -/

/-- Settles O11: both failures of the decoder are raised on the state the step found. -/
theorem decodeFaultChangesNothingElse : Obligations.DecodeFaultChangesNothingElse :=
  fun _ hs => ⟨fun _ hf => step_of_fetch_error hs hf, fun _ _ hf => step_of_fetch_error hs hf⟩

/-- An operation that takes a running core to FAULTED has raised a fault and changed nothing else (R9, R126). -/
theorem exec_eq_raise_of_faulted {i : Instr} {s t : State} (h : exec i s = .next t) (hs : s.st = .running)
    (ht : t.st = .faulted) : ∃ f, t = s.raise f := by
  obtain ⟨hst, -⟩ | ⟨-, rfl⟩ | hraise := exec_status h
  · rw [hst, hs] at ht; cases ht
  · cases ht
  · exact hraise

/-- Settles O12: the step ends in what the faulting operation left (O10), which is a raise on the state it was dispatched
in. -/
theorem dispatchFaultKeepsEarlierEffects : Obligations.DispatchFaultKeepsEarlierEffects := by
  intro s d hs hf
  obtain ⟨hfirst, hsecond⟩ := stepRunsTheDecodedPair s d hs hf
  refine ⟨fun t ht hfault => ?_, fun t u ht hrun hu hfault => ?_⟩
  · have hstep := hfirst t ht hfault
    obtain ⟨f, rfl⟩ := exec_eq_raise_of_faulted ht hs hfault
    exact ⟨hstep, rfl⟩
  · have hstep := hsecond t u ht hrun hu
    rw [if_pos hfault] at hstep
    obtain ⟨f, rfl⟩ := exec_eq_raise_of_faulted hu hrun hfault
    exact ⟨hstep, rfl⟩

/-! ## A branch beside a NOP (R122, R189, R272) -/

/-- BRZ on two operands: the offset is added to the pc at dispatch exactly when the condition is zero. -/
theorem exec_brz_of_cons {s : State} {cond off : Tryte} {S : List Tryte} (hE : s.estack = off :: cond :: S) :
    exec .brz s = .next ((s.setEstack S).setPc (if cond.val = 0 then s.pc + off.val else s.pc)) := by
  simp only [exec_brz, hE, isZero, decide_eq_true_eq]
  split_ifs <;> rfl

/-- Settles O46: the BRZ is dispatched with the pc already at the address after its own tryte. -/
theorem branchOffsetsCountFromTheNextInstruction : Obligations.BranchOffsetsCountFromTheNextInstruction := by
  intro s cond off S hP hs ht hE
  have hf : s.fetch = .ok ⟨⟨.nop, .brz⟩, s.pc + 1⟩ :=
    decodeAt_table (hP.ne_litHi (by decide)) rfl (by decide) (by decide) rfl ht
  have hpair := dispatchPair_of_both (p := ⟨.nop, .brz⟩) (s := s.setPc (s.pc + 1)) rfl hs
    (exec_brz_of_cons (cond := cond) (off := off) (S := S) (by simpa using hE))
  refine (step_of_fetch_ok hs hf).trans (hpair.trans ?_)
  simp [State.retire_of_not_faulted, hs, State.tick, State.setPc, State.setEstack]

end Sys2Proof.Machine

/-! PROOFS. The round trip of literals (O29, `41_literals.md`). -/

namespace Sys2Proof.Machine

/-! ## An operation beside a NOP (R123, R150) -/

/-- The low-slot operation is dispatched at the post-decode pc, with the NOP counted. -/
theorem step_of_nop_first {s t : State} {j : Instr} {p : Int} (hs : s.st = .running)
    (hf : s.fetch = .ok ⟨⟨.nop, j⟩, p⟩) (hj : exec j (s.setPc p).tick = .next t) : step s = .next t.retire := by
  have hcounted : (s.setPc p).retire = (s.setPc p).tick := State.retire_of_not_faulted (by simp [hs])
  exact (step_of_fetch_ok hs hf).trans (dispatchPair_of_both (t := s.setPc p) rfl hs (by rw [hcounted]; exact hj))

/-! ## Literals (R143) -/

/-- Settles O29: LIT is the step of O18; LITX and WORD are decoded beside a NOP, and the two halves of the word WORD joined
come apart again (R7). -/
theorem literalRoundTrip : Obligations.LiteralRoundTrip := by
  intro s hP hs
  have hnop : tb 0 ≠ s.params.litHi := hP.ne_litHi (by decide)
  refine ⟨fun v ht => ?_, fun v ht hv => ?_, fun H L ht hH hL => ?_⟩
  · obtain ⟨x, hx, hstep⟩ := inlineLiteralTakesTheWholeTryte.2 s v hs ht
    exact ⟨_, x, hstep, rfl, hx, rfl⟩
  · have hf : s.fetch = .ok ⟨⟨.nop, .litx v⟩, s.pc + 2⟩ := decodeAt_litx hnop rfl ht hv
    exact ⟨_, step_of_nop_first hs hf rfl, by simp, by simp⟩
  · have hf : s.fetch = .ok ⟨⟨.nop, .word (joinWord H L)⟩, s.pc + 3⟩ := decodeAt_word hnop rfl ht hH hL
    exact ⟨_, step_of_nop_first hs hf rfl, by simp, by simp⟩

end Sys2Proof.Machine

/-! PROOFS. Stack manipulation (`42_stack.md`): NOP, DROP, DUP, SWAP, ROTATE (O30 to O34) and the depth that a sequence of
operations leaves (O35). -/

/-! ## Both slots of a simple operation (R84) -/

namespace Sys2Proof

/-- The simple table is tried after the extended one, whose values are other values, and before the reserved rows. -/
theorem eitherSlot_of_mem_simpleTable {v : Trybble} {i : Instr} (h : (v, i) ∈ simpleTable) : EitherSlot v i := by
  intro P
  have hvalues : ((ext0Table ++ simpleTable).map Prod.fst).Nodup := (List.nodup_append.mp fixed_low_values_nodup).1
  have hlow : opOf (ext0Table ++ simpleTable) v = some i := opOf_of_mem hvalues (List.mem_append_right _ h)
  have hhigh : opOf simpleTable v = some i :=
    opOf_of_mem (hvalues.sublist ((List.sublist_append_right _ _).map _)) h
  exact ⟨opOf_append_of_some hhigh, opOf_append_of_some hlow⟩

end Sys2Proof

namespace Sys2Proof.Machine

/-! ## Too few trytes (R223) -/

section
variable {s : State} {op : Operation}

theorem State.takeOne_of_length_lt {k : Tryte → List Tryte → State} (h : s.estack.length < 1) :
    s.takeOne op k = s.raise (.stackUnderflow .evaluation op) := by
  obtain ⟨a, S, hE, -⟩ | ⟨-, e⟩ := s.takeOne_cases op k
  · simp [hE] at h
  · exact e

theorem State.takeTwo_of_length_lt {k : Tryte → Tryte → List Tryte → State} (h : s.estack.length < 2) :
    s.takeTwo op k = s.raise (.stackUnderflow .evaluation op) := by
  obtain ⟨a, b, S, hE, -⟩ | ⟨-, e⟩ := s.takeTwo_cases op k
  · simp [hE] at h
  · exact e

theorem State.takeThree_of_length_lt {k : Tryte → Tryte → Tryte → List Tryte → State} (h : s.estack.length < 3) :
    s.takeThree op k = s.raise (.stackUnderflow .evaluation op) := by
  obtain ⟨a, b, c, S, hE, -⟩ | ⟨-, e⟩ := s.takeThree_cases op k
  · simp +arith [hE] at h
  · exact e

end

/-- An operation that finds fewer trytes than it needs underflows, by its operand form. -/
theorem exec_of_length_lt_needs {i : Instr} {s : State} (h : s.estack.length < i.needs) :
    exec i s = .next (s.raise (.stackUnderflow .evaluation i.operation)) := by
  cases i
  case drop | dup | negate => exact congrArg _ (State.takeOne_of_length_lt h)
  case swap | add | load | jump | call | brn | brz | brp => exact congrArg _ (State.takeTwo_of_length_lt h)
  case rotate | store => exact congrArg _ (State.takeThree_of_length_lt h)
  all_goals exact absurd h (Nat.not_lt_zero _)

/-! ## The operations on a stack that is deep enough (R150 to R154) -/

theorem exec_dup_of_cons {s : State} {a : Tryte} {S : List Tryte} (hE : s.estack = a :: S) :
    exec .dup s = .next (s.setEstack (a :: a :: S)) := by
  rw [exec_dup, hE]

theorem exec_swap_of_cons {s : State} {a b : Tryte} {S : List Tryte} (hE : s.estack = b :: a :: S) :
    exec .swap s = .next (s.setEstack (a :: b :: S)) := by
  rw [exec_swap, hE]

theorem exec_rotate_of_cons {s : State} {a b c : Tryte} {S : List Tryte} (hE : s.estack = c :: b :: a :: S) :
    exec .rotate s = .next (s.setEstack (c :: a :: b :: S)) := by
  rw [exec_rotate, hE]

/-- Settles O30: the tryte 0 decodes to two NOPs, and the second is dispatched beside the first. -/
theorem nopDoesNothing : Obligations.NopDoesNothing := by
  refine ⟨eitherSlot_of_mem_simpleTable (by decide), fun _ => rfl, fun s hP hs ht => ?_⟩
  have hzero : s.memRead s.pc = some (joinTryte (tb 0) (tb 0)) := ht
  have hf : s.fetch = .ok ⟨⟨.nop, .nop⟩, s.pc + 1⟩ :=
    decodeAt_table (hP.ne_litHi (by decide)) rfl (by decide) (by decide) rfl hzero
  refine (step_of_nop_first hs hf rfl).trans ?_
  simp [State.retire_of_not_faulted, hs, State.tick, State.setPc]

/-- Settles O31: DROP takes one tryte and puts nothing back. -/
theorem dropDiscardsTheTop : Obligations.DropDiscardsTheTop :=
  ⟨eitherSlot_of_mem_simpleTable (by decide), fun _ _ _ => exec_drop_of_cons,
    fun s hE => exec_of_length_lt_needs (i := .drop) (by simp [hE, Instr.needs])⟩

/-- Settles O32: DUP needs the tryte it copies, though it pops none in the table of R25. -/
theorem dupCopiesTheTop : Obligations.DupCopiesTheTop :=
  ⟨eitherSlot_of_mem_simpleTable (by decide), fun _ _ _ => exec_dup_of_cons,
    fun s hE => exec_of_length_lt_needs (i := .dup) (by simp [hE, Instr.needs])⟩

/-- Settles O33: SWAP takes two trytes and puts them back the other way round. -/
theorem swapExchangesTheTopTwo : Obligations.SwapExchangesTheTopTwo :=
  ⟨eitherSlot_of_mem_simpleTable (by decide), fun _ _ _ _ => exec_swap_of_cons,
    fun _ => exec_of_length_lt_needs (i := .swap)⟩

/-- Settles O34: the second ROTATE exchanges the same two trytes again. -/
theorem rotateExchangesTheTwoUnderTheTop : Obligations.RotateExchangesTheTwoUnderTheTop := by
  refine ⟨eitherSlot_of_mem_simpleTable (by decide), fun s a b c S hE => ⟨exec_rotate_of_cons hE, ?_⟩,
    fun _ => exec_of_length_lt_needs (i := .rotate)⟩
  have htwice := exec_rotate_of_cons (s := s.setEstack (c :: a :: b :: S)) rfl
  rwa [← hE] at htwice

/-! ## Sequences of operations (R155) -/

/-- A run of operations that leaves the core running goes through a running core after the first. -/
theorem runOps_cons_inv {i : Instr} {is : List Instr} {s t : State} (h : runOps (i :: is) s = .next t)
    (ht : t.st = .running) : ∃ u, exec i s = .next u ∧ u.st = .running ∧ runOps is u = .next t := by
  obtain ⟨u, hu⟩ := exec_total i s
  simp only [runOps, hu] at h
  split_ifs at h with hrun
  · exact ⟨u, hu, hrun, h⟩
  · injection h with h
    exact absurd (h ▸ ht) hrun

/-- Any sequence that leaves the core running changes the depth by what its operations push and pop (R25). -/
theorem runOps_depth {is : List Instr} {s t : State} (h : runOps is s = .next t) (ht : t.st = .running) :
    t.estack.length + (is.map Instr.pops).sum = s.estack.length + (is.map Instr.pushes).sum := by
  induction is generalizing s with
  | nil => cases h; rfl
  | cons i is ih =>
    obtain ⟨u, hu, hrun, htail⟩ := runOps_cons_inv h ht
    have hrest := ih htail
    obtain ⟨-, -, hfirst, -⟩ := operationsPopAndPushAsTabled i s u hu (by simp [hrun])
    simp only [List.map_cons, List.sum_cons]
    omega

/-- The net effects of the five stack operations: DUP 1, DROP -1, the others 0. -/
theorem sum_pushes_add_count_drop {is : List Instr}
    (h : ∀ i ∈ is, i = .dup ∨ i = .swap ∨ i = .drop ∨ i = .rotate ∨ i = .nop) :
    (is.map Instr.pushes).sum + is.count .drop = (is.map Instr.pops).sum + is.count .dup := by
  induction is with
  | nil => rfl
  | cons i is ih =>
    obtain ⟨hi, his⟩ := List.forall_mem_cons.mp h
    have hrest := ih his
    obtain rfl | rfl | rfl | rfl | rfl := hi <;> simp [Instr.pushes, Instr.pops] <;> omega

/-- Settles O35: the depth changes by the pushes and pops of the sequence, which its DUPs and DROPs count. -/
theorem stackDiscipline : Obligations.StackDiscipline := by
  intro is s t his _ h ht
  have hdepth := runOps_depth h ht
  have hnet := sum_pushes_add_count_drop his
  omega

end Sys2Proof.Machine

/-! PROOFS. Arithmetic (`43_arithmetic.md`): ADD (O36, O37) and NEGATE (O38). -/

namespace Sys2Proof.Machine

/-! ## The arithmetic of trytes (R161 to R163) -/

/-- The sum is the one value in the range of a tryte that differs from `a + b` by a multiple of 729. -/
theorem tryteAdd_val_eq {a b : Tryte} {r : Int} (hr : -364 ≤ r ∧ r ≤ 364) (hk : ∃ k, r = a.val + b.val + 729 * k) :
    (tryteAdd a b).val = r := by
  obtain ⟨k, hk⟩ := hk
  have hwrap : (tryteAdd a b).val = _ := wrap6_val_eq_add_mul (a.val + b.val)
  omega

@[simp] theorem tryteNeg_val (a : Tryte) : (tryteNeg a).val = -a.val := rfl

@[simp] theorem tryteNeg_tryteNeg (a : Tryte) : tryteNeg (tryteNeg a) = a :=
  Tryte.ext (neg_neg a.val)

/-! ## ADD and NEGATE on a stack that is deep enough (R164, R165) -/

theorem exec_add_of_cons {s : State} {a b : Tryte} {S : List Tryte} (hE : s.estack = b :: a :: S) :
    exec .add s = .next (s.setEstack (tryteAdd a b :: S)) := by
  rw [exec_add, hE]

theorem exec_negate_of_cons {s : State} {a : Tryte} {S : List Tryte} (hE : s.estack = a :: S) :
    exec .negate s = .next (s.setEstack (tryteNeg a :: S)) := by
  rw [exec_negate, hE]

/-- Settles O36: a sum in the range is the sum itself, no multiple of 729 away. -/
theorem addIsExactInRange : Obligations.AddIsExactInRange := fun _ _ _ _ hE hlo hhi =>
  ⟨_, tryteAdd_val_eq ⟨hlo, hhi⟩ ⟨0, by omega⟩, exec_add_of_cons hE⟩

/-- Settles O37: the sum of two trytes leaves the range by less than 729, so one multiple of 729 brings it back. -/
theorem addWrapsOutOfRange : Obligations.AddWrapsOutOfRange := by
  refine ⟨eitherSlot_of_mem_simpleTable (by decide), fun s a b S hE => ?_, fun _ => exec_of_length_lt_needs (i := .add)⟩
  have ha := a.inRange
  have hb := b.inRange
  constructor
  · intro hover
    exact ⟨_, tryteAdd_val_eq (by omega) ⟨-1, by omega⟩, exec_add_of_cons hE⟩
  · intro hunder
    exact ⟨_, tryteAdd_val_eq (by omega) ⟨1, by omega⟩, exec_add_of_cons hE⟩

/-- Settles O38: the second NEGATE puts back the tryte that the first one popped. -/
theorem negateIsExact : Obligations.NegateIsExact := by
  refine ⟨eitherSlot_of_mem_simpleTable (by decide), fun s a S hE => ⟨_, tryteNeg_val a, exec_negate_of_cons hE, ?_⟩,
    fun s hE => exec_of_length_lt_needs (i := .negate) (by simp [hE, Instr.needs])⟩
  have htwice := exec_negate_of_cons (s := s.setEstack (tryteNeg a :: S)) rfl
  rwa [tryteNeg_tryteNeg, ← hE] at htwice

end Sys2Proof.Machine

/-! PROOFS. Memory access (`44_memory_access.md`): LOAD (O39) and STORE (O40). -/

namespace Sys2Proof.Machine

/-- A read that the port answers gives the tryte the store holds there (R54). -/
theorem State.get_of_memRead {s : State} {a : Int} {v : Tryte} (h : s.memRead a = some v) : s.mem.get a = v := by
  obtain ⟨-, hr⟩ | ⟨-, hr⟩ := s.memRead_cases a
  · exact Option.some.inj (hr.symm.trans h)
  · cases hr.symm.trans h

/-! ## An address that the store rejects (R222) -/

theorem exec_load_of_rejects {s : State} {H L : Tryte} {S : List Tryte} (hE : s.estack = L :: H :: S)
    (ha : s.params.accepts (joinWord H L).val = false) :
    exec .load s = .next (s.raise (.addressError (joinWord H L).val)) := by
  simp only [exec_load, hE, ha, Bool.false_eq_true, if_false]

theorem exec_store_of_rejects {s : State} {v H L : Tryte} {S : List Tryte} (hE : s.estack = L :: H :: v :: S)
    (ha : s.params.accepts (joinWord H L).val = false) :
    exec .store s = .next (s.raise (.addressError (joinWord H L).val)) := by
  simp only [exec_store, hE, ha, Bool.false_eq_true, if_false]

/-! ## LOAD (R170) and STORE (R171) -/

/-- Settles O39: a read that is answered is of an accepted address, and a rejected address raises on the state that was
found. -/
theorem loadReadsTheAddressedTryte : Obligations.LoadReadsTheAddressedTryte := by
  refine ⟨eitherSlot_of_mem_simpleTable (by decide), fun s H L v S hE hr => ?_,
    fun _ _ _ _ => exec_load_of_rejects, fun _ => exec_of_length_lt_needs (i := .load)⟩
  have hload := exec_load_of_accepts hE (State.accepts_of_memRead hr)
  have hget : s.mem.get (joinWord H L).val = v := State.get_of_memRead hr
  rwa [hget] at hload

/-- Settles O40: the new contents are the old ones with the one cell set. -/
theorem storeWritesTheAddressedTryte : Obligations.StoreWritesTheAddressedTryte :=
  ⟨eitherSlot_of_mem_simpleTable (by decide),
    fun s v H L _ hE ha => ⟨s.mem.set (joinWord H L).val v, exec_store_of_accepts hE ha,
      Memory.get_set_same _ _ _, fun _ => Memory.get_set_other _ _⟩,
    fun _ _ _ _ _ => exec_store_of_rejects, fun _ => exec_of_length_lt_needs (i := .store)⟩

end Sys2Proof.Machine

/-! PROOFS. Control transfer (`45_control_transfer.md`): RETURN, JUMP, CALL and the branches (O41 to O43, O45), the pair of CALL
and RETURN (O44), and the length of their instructions (O47). -/

namespace Sys2Proof

/-! ## The low slot alone (R85, R91) -/

/-- The extended table is tried first in the low slot, and the high slot holds no operation of it. -/
theorem lowSlotOnly_of_mem_ext0Table {v : Trybble} {i : Instr} (h : (v, i) ∈ ext0Table) : LowSlotOnly v i := by
  intro P
  have hvalue : opOf ext0Table v = some i := opOf_of_mem (by decide) h
  have hall : ∀ r ∈ ext0Table, r.2.isTransfer = true ∨ r.2 = .halt := by decide
  refine ⟨opOf_append_of_some (opOf_append_of_some hvalue), fun u hu => ?_⟩
  obtain ⟨htransfer, hhalt⟩ := Machine.highTable_not_low_only hu
  obtain hi | hi := hall _ h
  · exact Bool.false_ne_true (htransfer.symm.trans hi)
  · exact hhalt hi

/-- Settles O47: the longer formats hold LITX or WORD in the low slot. -/
theorem transfersAreOneTryteLong : Obligations.TransfersAreOneTryteLong := by
  intro P read p d hd hsecond
  obtain ⟨ws, h, -, hn⟩ := Encoding.of_decodeAt hd
  rw [hn]
  generalize d.ops = q at h hsecond
  cases h with
  | formatI | formatP => rfl
  | formatX1 | formatX2 => simp [Instr.isTransfer] at hsecond

end Sys2Proof

namespace Sys2Proof.Machine

/-! ## The transfers on stacks that are deep enough -/

theorem exec_ret_of_cons {s : State} {p : Int} {C : List Int} (hC : s.cstack = p :: C) :
    exec .ret s = .next ((s.setCstack C).setPc p) := by
  rw [exec_ret, hC]

theorem exec_ret_of_nil {s : State} (hC : s.cstack = []) :
    exec .ret s = .next (s.raise (.stackUnderflow .call .ret)) := by
  rw [exec_ret, hC]

theorem exec_jump_of_cons {s : State} {H L : Tryte} {S : List Tryte} (hE : s.estack = L :: H :: S) :
    exec .jump s = .next ((s.setEstack S).setPc (joinWord H L).val) := by
  rw [exec_jump, hE]

theorem exec_call_of_cons {s : State} {H L : Tryte} {S : List Tryte} (hE : s.estack = L :: H :: S) :
    exec .call s = .next (((s.setEstack S).setCstack (s.pc :: s.cstack)).setPc (joinWord H L).val) := by
  rw [exec_call, hE]

/-- Both operands are popped, and the offset is added to the pc at dispatch exactly when the predicate holds (R189). -/
theorem State.branchIf_of_cons {s : State} {op : Operation} {holds : Tryte → Bool} {cond off : Tryte} {S : List Tryte}
    {taken : Prop} [Decidable taken] (hE : s.estack = off :: cond :: S) (htaken : holds cond = true ↔ taken) :
    s.branchIf op holds = (s.setEstack S).setPc (if taken then s.pc + off.val else s.pc) := by
  simp only [State.branchIf, State.takeTwo, hE, htaken]
  split_ifs <;> rfl

theorem exec_brn_of_cons {s : State} {cond off : Tryte} {S : List Tryte} (hE : s.estack = off :: cond :: S) :
    exec .brn s = .next ((s.setEstack S).setPc (if cond.val < 0 then s.pc + off.val else s.pc)) :=
  congrArg _ (State.branchIf_of_cons hE decide_eq_true_iff)

theorem exec_brp_of_cons {s : State} {cond off : Tryte} {S : List Tryte} (hE : s.estack = off :: cond :: S) :
    exec .brp s = .next ((s.setEstack S).setPc (if 0 < cond.val then s.pc + off.val else s.pc)) :=
  congrArg _ (State.branchIf_of_cons hE decide_eq_true_iff)

/-! ## RETURN (R180), JUMP (R181) and CALL (R182) -/

/-- Settles O41: RETURN's one operand is on the call stack. -/
theorem returnPopsTheCallStack : Obligations.ReturnPopsTheCallStack :=
  ⟨lowSlotOnly_of_mem_ext0Table (by decide), fun _ _ _ => exec_ret_of_cons, fun _ => exec_ret_of_nil⟩

/-- Settles O42: the value of the word popped is the target itself. -/
theorem jumpGoesToThePoppedWord : Obligations.JumpGoesToThePoppedWord :=
  ⟨lowSlotOnly_of_mem_ext0Table (by decide), fun _ _ _ _ => exec_jump_of_cons,
    fun _ => exec_of_length_lt_needs (i := .jump)⟩

/-- Settles O43: the pc pushed is the one before the jump. -/
theorem callSavesThePcAndJumps : Obligations.CallSavesThePcAndJumps :=
  ⟨lowSlotOnly_of_mem_ext0Table (by decide), fun _ _ _ _ => exec_call_of_cons,
    fun _ => exec_of_length_lt_needs (i := .call)⟩

/-- Settles O44: a CALL that finds its target leaves its pc on top of the caller's call stack, where RETURN pops it (R188). -/
theorem returnRestoresTheCallersPc : Obligations.ReturnRestoresTheCallersPc := by
  intro s t hcall hlen u hu
  rcases hE : s.estack with _ | ⟨L, _ | ⟨H, S⟩⟩
  · simp [hE] at hlen
  · simp [hE] at hlen
  · rw [exec_call_of_cons hE] at hcall
    cases hcall
    exact exec_ret_of_cons hu

/-! ## The conditional branches (R184 to R186, R189) -/

/-- Settles O45: the three branches differ in the predicate alone. -/
theorem branchesTestTheSign : Obligations.BranchesTestTheSign :=
  ⟨⟨lowSlotOnly_of_mem_ext0Table (by decide), lowSlotOnly_of_mem_ext0Table (by decide),
      lowSlotOnly_of_mem_ext0Table (by decide)⟩,
    fun _ _ _ _ hE => ⟨exec_brn_of_cons hE, exec_brz_of_cons hE, exec_brp_of_cons hE⟩,
    fun _ hE => ⟨exec_of_length_lt_needs (i := .brn) hE, exec_of_length_lt_needs (i := .brz) hE,
      exec_of_length_lt_needs (i := .brp) hE⟩⟩

end Sys2Proof.Machine

/-! PROOFS. HALT and the reserved operations (`46_halt_and_reserved.md`): what each does (O50, O51) and their frame (O59). -/

namespace Sys2Proof.Machine

/-- HALT sets the status alone (R200). -/
theorem exec_halt (s : State) : exec .halt s = .next s.halt := rfl

/-- Settles O59: what HALT and a reserved operation answer differs from the state they found in status and record only. -/
theorem haltAndReservedFrame : Obligations.HaltAndReservedFrame := by
  rintro i s t (rfl | ⟨r, rfl⟩) h
  · cases (exec_halt s).symm.trans h
    exact ⟨rfl, rfl, rfl, rfl, rfl, fun _ => rfl, fun _ => rfl⟩
  · cases (exec_toInstr r s).symm.trans h
    exact ⟨rfl, rfl, rfl, rfl, rfl, fun _ => rfl, fun hr => by cases r <;> cases hr⟩

/-- Settles O50: an instruction with HALT is one tryte long (O47), its first operation writes neither `pc` nor `cy`, and both
operations are counted (O10). -/
theorem haltEndsTheRun : Obligations.HaltEndsTheRun := by
  refine ⟨lowSlotOnly_of_mem_ext0Table (by decide), exec_halt, fun s t d hs hd hsecond ht hrun => ?_⟩
  have hnext : d.next = s.pc + 1 := transfersAreOneTryteLong _ _ _ _ hd (.inr hsecond)
  have hpc : t.pc = s.pc + 1 := (exec_pc (decodeAt_first_not_low_only hd).1 ht).trans hnext
  have hcy : t.cy = s.cy := exec_cy (s := s.setPc d.next) ht
  have hstep := (stepRunsTheDecodedPair s d hs hd).2 t _ ht hrun (by rw [hsecond]; exact exec_halt _)
  rw [hstep, ← hpc, ← hcy]
  rfl

/-- Settles O51: each of the six is the operation of a reserved entry (R92), which raises its own fault. -/
theorem reservedOperationsRaiseUnimplementedOpcode : Obligations.ReservedOperationsRaiseUnimplementedOpcode :=
  fun s => ⟨exec_toInstr .inc s, exec_toInstr .max s, exec_toInstr .shl s, exec_toInstr .shr s, exec_toInstr .signed s,
    exec_toInstr .unsigned s⟩

end Sys2Proof.Machine

/-! PROOFS. Faults at dispatch (`60_exceptions.md`): which faults an operation can raise (O53), and exactly when it underflows
the evaluation stack (O54). -/

namespace Sys2Proof.Machine

/-! ## The table of faults (R220) -/

/-- The faults an operation can raise when it is dispatched in `s`, each with its cause (R222, R223, R224). -/
inductive CanRaise (s : State) (i : Instr) : FaultRecord → Prop
  | underflowE (hlen : s.estack.length < i.needs) : CanRaise s i (.stackUnderflow .evaluation i.operation)
  | underflowC (hi : i = .ret) (hC : s.cstack = []) : CanRaise s i (.stackUnderflow .call .ret)
  | address {a : Int} (hi : i = .load ∨ i = .store) (ha : s.params.accepts a = false) : CanRaise s i (.addressError a)
  | unimplemented {r : ReservedOp} (hi : i = r.toInstr) : CanRaise s i (.unimplementedOpcode r)

/-- If `t`, reached from a running `s` by dispatching `i`, is FAULTED, then it records a fault that `i` can raise in `s`. -/
def State.FaultsAsTabled (s : State) (i : Instr) (t : State) : Prop :=
  s.st = .running → t.st = .faulted → ∃ f, t.fault = some f ∧ CanRaise s i f

section
variable {s t : State} {i : Instr} {f : FaultRecord}

theorem State.FaultsAsTabled.of_st_eq (h : t.st = s.st) : s.FaultsAsTabled i t := by
  intro hs ht
  cases hs.symm.trans (h.symm.trans ht)

theorem State.FaultsAsTabled.raise (hf : CanRaise s i f) : s.FaultsAsTabled i (s.raise f) :=
  fun _ _ => ⟨f, rfl, hf⟩

/-! ### The operand forms -/

theorem State.FaultsAsTabled.takeOne {k : Tryte → List Tryte → State} (hi : i.needs = 1)
    (hk : ∀ a S, s.FaultsAsTabled i (k a S)) : s.FaultsAsTabled i (s.takeOne i.operation k) := by
  obtain ⟨a, S, -, e⟩ | ⟨hlen, e⟩ := s.takeOne_cases i.operation k <;> rw [e]
  · exact hk a S
  · exact .raise (.underflowE (hi ▸ hlen))

theorem State.FaultsAsTabled.takeTwo {k : Tryte → Tryte → List Tryte → State} (hi : i.needs = 2)
    (hk : ∀ a b S, s.FaultsAsTabled i (k a b S)) : s.FaultsAsTabled i (s.takeTwo i.operation k) := by
  obtain ⟨a, b, S, -, e⟩ | ⟨hlen, e⟩ := s.takeTwo_cases i.operation k <;> rw [e]
  · exact hk a b S
  · exact .raise (.underflowE (hi ▸ hlen))

theorem State.FaultsAsTabled.takeThree {k : Tryte → Tryte → Tryte → List Tryte → State} (hi : i.needs = 3)
    (hk : ∀ a b c S, s.FaultsAsTabled i (k a b c S)) : s.FaultsAsTabled i (s.takeThree i.operation k) := by
  obtain ⟨a, b, c, S, -, e⟩ | ⟨hlen, e⟩ := s.takeThree_cases i.operation k <;> rw [e]
  · exact hk a b c S
  · exact .raise (.underflowE (hi ▸ hlen))

theorem State.FaultsAsTabled.takeReturn {k : Int → List Int → State} (hk : ∀ p C, s.FaultsAsTabled .ret (k p C)) :
    s.FaultsAsTabled .ret (s.takeReturn .ret k) := by
  obtain ⟨p, C, -, e⟩ | ⟨hC, e⟩ := s.takeReturn_cases .ret k <;> rw [e]
  · exact hk p C
  · exact .raise (.underflowC rfl hC)

theorem State.FaultsAsTabled.fromStore {a : Int} {k : Tryte → State} (hk : ∀ v, s.FaultsAsTabled .load (k v)) :
    s.FaultsAsTabled .load (s.fromStore a k) := by
  obtain ⟨-, e⟩ | ⟨ha, e⟩ := s.fromStore_cases a k <;> rw [e]
  · exact hk _
  · exact .raise (.address (.inl rfl) ha)

theorem State.FaultsAsTabled.intoStore {a : Int} {v : Tryte} {k : State → State}
    (hk : ∀ m, s.FaultsAsTabled .store (k (s.setMem m))) : s.FaultsAsTabled .store (s.intoStore a v k) := by
  obtain ⟨-, e⟩ | ⟨ha, e⟩ := s.intoStore_cases a v k <;> rw [e]
  · exact hk _
  · exact .raise (.address (.inr rfl) ha)

theorem State.FaultsAsTabled.branchIf {holds : Tryte → Bool} (hi : i.needs = 2) :
    s.FaultsAsTabled i (s.branchIf i.operation holds) :=
  .takeTwo hi fun cond _ _ => by
    cases holds cond <;> exact .of_st_eq rfl

end

/-! ### Every operation -/

/-- Every operation raises its tabled faults only, by its operand form. -/
theorem exec_faultsAsTabled (i : Instr) (s : State) : ∃ t, exec i s = .next t ∧ s.FaultsAsTabled i t := by
  cases i <;> refine ⟨_, rfl, ?_⟩
  case lit | litx | word | nop => exact .of_st_eq rfl
  case drop | dup | negate => exact .takeOne rfl fun _ _ => .of_st_eq rfl
  case swap | add | jump | call => exact .takeTwo rfl fun _ _ _ => .of_st_eq rfl
  case rotate => exact .takeThree rfl fun _ _ _ _ => .of_st_eq rfl
  case load => exact .takeTwo rfl fun _ _ _ => .fromStore fun _ => .of_st_eq rfl
  case store => exact .takeThree rfl fun _ _ _ _ => .intoStore fun _ => .of_st_eq rfl
  case ret => exact .takeReturn fun _ _ => .of_st_eq rfl
  case brn | brz | brp => exact .branchIf rfl
  case halt => exact fun _ ht => nomatch ht
  case inc | max | shl | shr | signed | unsigned => exact fun _ _ => ⟨_, rfl, .unimplemented rfl⟩

/-- A dispatch that takes a running core to FAULTED records a fault its operation can raise (R220). -/
theorem exec_fault {i : Instr} {s t : State} (h : exec i s = .next t) (hs : s.st = .running) (ht : t.st = .faulted) :
    ∃ f, t.fault = some f ∧ CanRaise s i f := by
  obtain ⟨u, hu, htabled⟩ := exec_faultsAsTabled i s
  cases hu.symm.trans h
  exact htabled hs ht

/-- Settles O53: the four clauses are the four rows of the table of faults. -/
theorem dispatchRaisesOnlyTheTabledFaults : Obligations.DispatchRaisesOnlyTheTabledFaults := by
  refine ⟨⟨fun _ _ => rfl, fun _ => rfl, fun _ _ => rfl, fun _ => rfl⟩, fun i s t hs h ht => ?_⟩
  obtain ⟨f, hf, hraise⟩ := exec_fault h hs ht
  cases hraise with
  | underflowE hlen => exact .inl ⟨_, hf, rfl, hlen⟩
  | underflowC hi hC => exact .inr (.inl ⟨hf, hi, hC⟩)
  | address hi ha => exact .inr (.inr (.inl ⟨_, hf, hi, ha⟩))
  | unimplemented hi => exact .inr (.inr (.inr ⟨_, hf, hi⟩))

/-! ## Underflow (R223) -/

/-- Settles O54: too few trytes underflow by the operand form, and the table gives that fault no other cause. -/
theorem underflowExactlyWhenTooFew : Obligations.UnderflowExactlyWhenTooFew := by
  refine fun i s hs => ⟨exec_of_length_lt_needs, fun h => ?_⟩
  obtain ⟨f, hf, hraise⟩ := exec_fault h hs rfl
  cases hf
  cases hraise with
  | underflowE hlen => exact hlen

end Sys2Proof.Machine
